-- ==== Sys2Proof/Word.lean ====
section
/-! DEFINITION. The value types of 00_scope.md R10: everything is unsigned, of 8, 16 or 32 bits; lengths and
offsets are naturals. -/

namespace Sys2Proof

/-- `u8` of R10: one byte of `IB`, `OB`, a frame. -/
abbrev Byte := BitVec 8

/-- `u16` of R10: the payload length `RSP.LEN`. -/
abbrev Half := BitVec 16

/-- `u32` of R10: a table entry, a checksum, an address, a length field of a request or a response. -/
abbrev Word := BitVec 32

end Sys2Proof
end

