-- ==== Sys2Proof/Config.lean ====
section
/-! DEFINITION. What an implementation fixes (00_scope.md section 4) and the values the spec leaves open. -/

namespace Sys2Proof.Config

/-- `MAX_PAYLOAD` of R5. -/
def maxPayload : Nat := 65535

/-- `MIN_FRAME` of R6: the 23 bytes of a frame that are not payload. -/
def minFrame : Nat := 23

/-- `MAX_FRAME` of R6, 65558. -/
def maxFrame : Nat := minFrame + maxPayload

/-- `P_TABLE_INIT` of R7: when the lookup table is built. -/
inductive TableInit where
  /-- Only BUILD_TABLE builds it; asking for a checksum earlier is the error NotInitialized (R98). -/
  | explicit
  /-- Reset builds it (R193). -/
  | eager
  /-- The first checksum request builds it (R193). -/
  | lazy
  deriving DecidableEq, Repr

/-- The three parameters of the spec (R7, R8, R9). -/
structure Params where
  /-- `P_TABLE_INIT` (R7). -/
  tableInit : TableInit
  /-- `P_UPPER_HEX` (R8): the decoder accepts `A` to `F`. -/
  upperHex : Bool
  /-- How many bytes `P_BUF_BYTES` has above its lower bound 65558 (R9). -/
  bufExtra : Nat
  deriving DecidableEq, Repr

/-- `P_BUF_BYTES` of R9; the constraint `P_BUF_BYTES >= 65558` holds by construction. -/
def Params.bufBytes (p : Params) : Nat := maxFrame + p.bufExtra

/-- The open part of `P_BUF_BYTES` (R9, D8: "OPEN"): a value with no body, so that no proof can see it
(log entry 8). -/
opaque bufExtra : Nat

/-- The values this spec takes: `explicit` (R7, D5) and upper case accepted (R8, D11); the capacity stays open. -/
def params : Params := { tableInit := .explicit, upperHex := true, bufExtra := bufExtra }

/-- FREE VALUE: what `IB[k]` holds where the host has supplied no byte for offset `k` and a request counts it as
input all the same; no proof can see it (log entry 4). -/
opaque unsuppliedByte : Nat → Byte

end Sys2Proof.Config
end

