-- ==== Sys2Proof/Syntax.lean ====
section
/-! DEFINITION. The request as the host presents it (30_encoding.md R61) and the operation it asks for (R60), one
constructor per row of spec/opcode_table.json. -/

namespace Sys2Proof

/-- The request format `REQ` of R61: three fields presented together, not packed into one word. -/
structure Request where
  /-- `REQ.OP`, the operation code. -/
  op : BitVec 2
  /-- `REQ.ADDR`, read by ENCODE only. -/
  addr : Word
  /-- `REQ.DLEN`, the number of valid bytes in `IB`. -/
  dlen : Word
  deriving DecidableEq, Repr

/-- An operation with the operands it reads (R29, R60). The input bytes stand in `IB`, not in the request. -/
inductive Instr where
  /-- BUILD_TABLE (R93): reads no operand. -/
  | buildTable
  /-- CHECKSUM (R97) of `IB[0 .. dlen)`. -/
  | checksum (dlen : Word)
  /-- ENCODE (R110) of the message with address `addr` and payload `IB[0 .. dlen)`. -/
  | encode (addr : Word) (dlen : Word)
  /-- DECODE (R125) of the frame `IB[0 .. dlen)`. -/
  | decode (dlen : Word)
  deriving DecidableEq, Repr

end Sys2Proof
end

