-- ==== Sys2Proof/WellFormed.lean ====
section
/-! DEFINITION. Which operations a host can present: the length an operation reads fits the buffer
(00_scope.md R9, 30_encoding.md R77 (e)). -/

namespace Sys2Proof

/-- `d` bytes fit a buffer of `P_BUF_BYTES` bytes. The first disjunct follows from the second; it lets a length up to
65558, which every implementation accepts, be decided although `P_BUF_BYTES` is open. -/
def fitsBuffer (p : Config.Params) (d : Word) : Bool :=
  decide (d.toNat ≤ Config.maxFrame) || decide (d.toNat ≤ p.bufBytes)

/-- An operation that can be presented. BUILD_TABLE reads no length, so any value of the field will do (R29). -/
def Instr.wf (p : Config.Params) : Instr → Bool
  | .buildTable => true
  | .checksum d => fitsBuffer p d
  | .encode _ d => fitsBuffer p d
  | .decode d => fitsBuffer p d

end Sys2Proof
end

