-- ==== Sys2Proof/Decode.lean ====
section
/-! DEFINITION. From a request to the operation it asks for, and back (30_encoding.md R60, R61). -/

namespace Sys2Proof

/-- Why a request is turned away. All four operation codes are defined (R60, R77 (a)), so the length is the only
ground. -/
inductive DecodeReject where
  /-- `REQ.DLEN > P_BUF_BYTES`: such a request "cannot be presented" (R77 (e)). -/
  | lengthBeyondCapacity
  deriving DecidableEq, Repr

/-- The operation codes of R60. -/
def Instr.opCode : Instr → BitVec 2
  | .buildTable => 0b00#2
  | .checksum _ => 0b01#2
  | .encode _ _ => 0b10#2
  | .decode _ => 0b11#2

/-- An operation that reads `REQ.DLEN`, provided the length fits the buffer. -/
def withLength (p : Config.Params) (d : Word) (i : Instr) : Except DecodeReject Instr :=
  if fitsBuffer p d then .ok i else .error .lengthBeyondCapacity

/-- The operation a request asks for. A field the operation does not read has no effect (R29). -/
def decodeRequest (p : Config.Params) (r : Request) : Except DecodeReject Instr :=
  if r.op = 0b00#2 then .ok .buildTable
  else if r.op = 0b01#2 then withLength p r.dlen (.checksum r.dlen)
  else if r.op = 0b10#2 then withLength p r.dlen (.encode r.addr r.dlen)
  else withLength p r.dlen (.decode r.dlen)

/-- The request for an operation, zero in the fields it does not read. -/
def encodeRequest : Instr → Request
  | .buildTable => { op := 0b00#2, addr := 0, dlen := 0 }
  | .checksum d => { op := 0b01#2, addr := 0, dlen := d }
  | .encode a d => { op := 0b10#2, addr := a, dlen := d }
  | .decode d => { op := 0b11#2, addr := 0, dlen := d }

/-- The request whose operation code is the opcode table's two bits `w` and whose operand fields are zero; `none` for
a number that is no 2-bit code (log entry 10). -/
def requestOfWord (w : Nat) : Option Request :=
  if w < 4 then some { op := BitVec.ofNat 2 w, addr := 0, dlen := 0 } else none

/-- What the decoder reads from an opcode-table word. Every code has two bits, so `_nbits` decides nothing. -/
def decodeTableWord (_nbits w : Nat) : Option Instr :=
  match requestOfWord w with
  | none => none
  | some r => (decodeRequest Config.params r).toOption

end Sys2Proof
end

