-- ==== Sys2Proof/Machine/State.lean ====
section
/-! DEFINITION. The state of the block and of its port to the host (10_state.md, 20_memory.md), the errors, and the
reasons a step can stop. -/

namespace Sys2Proof.Machine

/-- The seven errors, enumeration without arguments (R165, R173); their numbers are in Machine/Flags.lean. -/
inductive ErrorCode where
  /-- R166: DECODE, the frame does not begin with the start marker. -/
  | invalidStart
  /-- R167: DECODE, the frame does not end with the terminator. -/
  | invalidTerminator
  /-- R168: DECODE, fewer than 23 bytes, or a LEN field that disagrees with the bytes present. -/
  | truncated
  /-- R169: DECODE, the recomputed checksum differs from the claimed one. -/
  | checksumMismatch
  /-- R170: DECODE, a hexadecimal field holds a byte that is no digit. -/
  | malformedField
  /-- R171: ENCODE, more than 65535 payload bytes. -/
  | payloadTooLarge
  /-- R172: CHECKSUM, ENCODE or DECODE asked for a checksum while `TVALID = 0`. -/
  | notInitialized
  deriving DecidableEq, Repr

/-- The results of an operation that succeeded (R28, R29). -/
structure Result where
  /-- `RSP.CRC`. -/
  crc : Word
  /-- `RSP.ADDR`. -/
  addr : Word
  /-- `RSP.LEN`. -/
  len : Half
  /-- `RSP.OLEN`. -/
  olen : Word
  deriving DecidableEq, Repr

/-- A response: either the error alone or the results, as R30 asks, so that no result of a failed operation exists.
What the five fields read as is in Machine/Ops.lean (`RSP.OLEN`) and Machine/Flags.lean (the others). -/
inductive Response where
  /-- The operation raised an error. -/
  | failed (e : ErrorCode)
  /-- The operation succeeded (`RSP.ERR = None`). -/
  | done (r : Result)
  deriving DecidableEq, Repr

/-- A buffer: bytes by offset, in the canonical form of `Memory.wf`. An unlisted offset holds no value that the
model states (log entries 4 and 5). -/
abbrev Memory := List Host.Cell

/-- The fixed-size lookup table `TABLE` (R23): 256 entries of 32 bits. -/
abbrev Table := Vector Word 256

/-- Why the machine stops. The spec's own errors are no stops: they are responses (R165, R177). -/
inductive Fault where
  /-- Raised by CHECKSUM, ENCODE and DECODE where `TVALID = 1` and `TABLE` holds no value, which no run reaches (R23).
  Safe: nothing is computed from a table that holds no value (log entry 3). -/
  | tableHoldsNoValue
  deriving DecidableEq, Repr

/-- What the model offers no step for. -/
inductive Refusal where
  /-- Raised by an arm of exec that has no meaning yet; no arm does. Safe. -/
  | notModelled (mnemonic : String)
  /-- Raised by step on a request with `REQ.DLEN > P_BUF_BYTES`, which "cannot be presented" (R77 (e)). Safe. -/
  | lengthBeyondCapacity
  /-- Raised by the host port on a second request before the response (R197, U7). Safe: the block's answer is open. -/
  | requestWhileBusy
  /-- Raised by the host port when the host changes `IB` while a request is pending (R198, U8). Safe, as above. -/
  | bufferInUse
  /-- Raised by the host port for an offset at or beyond `P_BUF_BYTES` (R9, R40). Safe: there is no such byte. -/
  | offsetBeyondCapacity
  deriving DecidableEq, Repr

/-- Everything the spec gives the machine: the persistent pair `TVALID`, `TABLE` (R25), the two buffers (R40) and the
port: the pending request (R27), the reset input (R190) and the last response (R28). -/
structure State where
  /-- `TVALID` (R22): the table has been built. -/
  tvalid : Bool
  /-- `TABLE` (R23); `none` is the spec's "holds no value" (R34, U1). -/
  table : Option Table
  /-- The request the host has presented and the block has not answered; `none` while the block is idle (R21). -/
  request : Option Request
  /-- The reset input (R190). -/
  resetIn : Bool
  /-- The input buffer `IB` (R42). -/
  ib : Memory
  /-- The output buffer `OB` (R43). -/
  ob : Memory
  /-- The response of the last operation; `none` until the first one ends (R34). -/
  response : Option Response
  deriving DecidableEq, Repr

/-- The machine right after reset (R34): table not built, idle, no response. The buffers are the host's and reset does
not touch them; here they list nothing (log entry 13). -/
def State.reset : State :=
  { tvalid := false, table := none, request := none, resetIn := false, ib := [], ob := [], response := none }

end Sys2Proof.Machine
end

