-- ==== Sys2Proof/Machine/Crc.lean ====
section
/-! DEFINITION. The CRC-32 engine as functions of values (40_crc32_engine.md R91, R92, R95, R96). -/

namespace Sys2Proof.Machine

/-- `POLY` of R4. -/
def poly : Word := 0xEDB88320#32

/-- `INIT` of R4. -/
def crcInit : Word := 0xFFFFFFFF#32

/-- The working registers of the table construction (R26): `BYT` and `ACC`. -/
structure BuildRegs where
  /-- `BYT`. -/
  byt : Byte
  /-- `ACC`. -/
  acc : Word
  deriving DecidableEq, Repr

/-- One iteration of the loop of R91; both shifts are logical (R101). -/
def tableStep (r : BuildRegs) : BuildRegs :=
  { byt := r.byt >>> 1
    acc := if (r.byt.setWidth 32 ^^^ r.acc) &&& 1#32 = 1#32 then (r.acc >>> 1) ^^^ poly else r.acc >>> 1 }

/-- `n` iterations of the loop of R91. -/
def tableSteps : Nat → BuildRegs → BuildRegs
  | 0, r => r
  | n + 1, r => tableSteps n (tableStep r)

/-- The table entry function `T(i)` of R91. -/
def tableEntry (i : Byte) : Word := (tableSteps 8 { byt := i, acc := 0#32 }).acc

/-- The table BUILD_TABLE writes: entry `i` is `T(i)` (R92). -/
def builtTable : Table :=
  ⟨⟨(List.range 256).map fun i => tableEntry (BitVec.ofNat 8 i)⟩, by simp⟩

/-- The index of R41 and R95: the low 8 bits of the input byte exclusive-or the accumulator. -/
def crcIndex (acc : Word) (c : Byte) : Byte := (c.setWidth 32 ^^^ acc).setWidth 8

/-- `TABLE[i]`, read as a whole entry (R23); no index is out of range (R41). -/
def tableRead (v : Table) (i : Byte) : Word := v.get i.toFin

/-- `crc_step` of R95. -/
def crcStep (v : Table) (acc : Word) (c : Byte) : Word := (acc >>> 8) ^^^ tableRead v (crcIndex acc c)

/-- `crc32` of R96 with the table `v`. -/
def crc32With (v : Table) (s : List Byte) : Word := ~~~(s.foldl (crcStep v) crcInit)

/-- `crc32` of R96 with the built table. -/
def crc32 (s : List Byte) : Word := crc32With builtTable s

end Sys2Proof.Machine
end

