-- ==== Sys2Proof/Machine/Ops.lean ====
section
/-! DEFINITION. The named operations over memory and state that the meanings share: reading and writing a buffer,
asking for the table, ending an operation with an error or with results, taking reset. -/

namespace Sys2Proof.Machine

/-- The canonical form of a buffer: offsets strictly rising. -/
abbrev Memory.wf (m : Memory) : Prop := m.Pairwise fun c d => c.1 < d.1

/-- The byte listed at offset `a`. -/
def Memory.read : Memory → Nat → Option Byte
  | [], _ => none
  | (k, b) :: rest, a => if k = a then some b else Memory.read rest a

/-- `m` with byte `b` at offset `a`. -/
def Memory.write : Memory → Nat → Byte → Memory
  | [], a, b => [(a, b)]
  | (k, c) :: rest, a, b =>
    if a < k then (a, b) :: (k, c) :: rest
    else if a = k then (a, b) :: rest
    else (k, c) :: Memory.write rest a b

/-- A buffer of which the model states no byte. -/
def Memory.blank : Memory := []

/-- The bytes `bs` at the offsets from `a` on, and no other byte stated. -/
def Memory.ofBytes : Nat → List Byte → Memory
  | _, [] => Memory.blank
  | a, b :: bs => (a, b) :: Memory.ofBytes (a + 1) bs

/-- The bytes of a buffer below offset `n`; of the others no byte is stated. -/
def Memory.below (n : Nat) (m : Memory) : Memory := m.filter fun c => decide (c.1 < n)

/-- Construction of the table (R92, R93): every entry written, `TVALID` set. -/
def State.buildTable (s : State) : State := { s with tvalid := true, table := some builtTable }

/-- `OB[0 .. len(bs)) <- bs` (R43, R110, R137). -/
def State.storeOutput (s : State) (bs : List Byte) : State := { s with ob := Memory.ofBytes 0 bs }

/-- What `RSP.OLEN` reads as in a response (R28), zero after a failure (R30). -/
def Response.olen : Response → Word
  | .failed _ => 0#32
  | .done r => r.olen

/-- The end of an operation, whichever it is: the response is there, the block is idle again (R28, R175 (f)), and the
bytes of `OB` at and beyond `RSP.OLEN` have no meaning, whether or not the operation has written them: none of them is
stated (R43, U6, log entry 5). -/
def State.respond (s : State) (r : Response) : State :=
  { s with request := none, ob := s.ob.below r.olen.toNat, response := some r }

/-- `raise e` (00_scope.md section 5, R175): the operation ends with the error and nothing else. -/
def State.raise (s : State) (e : ErrorCode) : State := s.respond (.failed e)

/-- The end of an operation that succeeded. -/
def State.complete (s : State) (r : Result) : State := s.respond (.done r)

/-- What asking for the table gives. -/
inductive TableAccess where
  /-- `TVALID = 0` and the policy does not build it now: NotInitialized (R98). -/
  | notBuilt
  /-- `TVALID = 1` with no table, which no run reaches (R23). -/
  | noValue
  /-- The table, and the state it leaves (changed only where the policy builds the table now, R193). -/
  | ready (v : Table) (t : State)
  deriving DecidableEq, Repr

/-- The check every checksum request makes first (R22, R98), under each policy of R193. -/
def State.requestTable (init : Config.TableInit) (s : State) : TableAccess :=
  if s.tvalid then
    match s.table with
    | some v => .ready v s
    | none => .noValue
  else
    match init with
    | .lazy => .ready builtTable s.buildTable
    | .explicit => .notBuilt
    | .eager => .notBuilt

/-- Reset (R190, R34, R193): the table not built (under `eager`: built), idle, no response, `IB` untouched. `OB` is
untouched too, unless a request was pending: the operation it abandons may have left any bytes there (R191, U9). -/
def State.takeReset (init : Config.TableInit) (s : State) : State :=
  let t : State :=
    { tvalid := false, table := none, request := none, resetIn := false, ib := s.ib,
      ob := if s.request.isSome then Memory.blank else s.ob, response := none }
  match init with
  | .eager => t.buildTable
  | .explicit => t
  | .lazy => t

/-- A step of the idle block (R21): nothing happens. -/
def stepIdle (s : State) : Host.Outcome State Fault Refusal := .next s

/-- A request the decoder turns away is refused by name (R77 (e)). -/
def refuseRequest : DecodeReject → Host.Outcome State Fault Refusal
  | .lengthBeyondCapacity => .refused .lengthBeyondCapacity

end Sys2Proof.Machine
end

