-- ==== Sys2Proof/Machine/Operands.lean ====
section
/-! DEFINITION. The operand forms: the input bytes of a request (20_memory.md R42), the hexadecimal fields
(30_encoding.md R68 to R72) and the parts of a frame (R66, R74). -/

namespace Sys2Proof.Machine

/-- `IB[k]` (R42); a byte the host has not supplied is a free value (log entry 4). -/
def State.inputByte (s : State) (k : Nat) : Byte := (s.ib.read k).getD (Config.unsuppliedByte k)

/-- `IB[0 .. m)`: no offset at or beyond `m` is read (R48). -/
def State.inputBytes (s : State) (m : Nat) : List Byte := (List.range m).map s.inputByte

/-- The start marker (R68). -/
def colon : Byte := 0x3A#8

/-- Carriage return (R68). -/
def cr : Byte := 0x0D#8

/-- Line feed (R68). -/
def lf : Byte := 0x0A#8

/-- `hexdig(v)` of R69, for `v` up to 15: the lower-case digit. -/
def hexdig (v : Nat) : Byte := if v ≤ 9 then BitVec.ofNat 8 (0x30 + v) else BitVec.ofNat 8 (0x61 + (v - 10))

/-- `hexval(c)` of R70; `upper` is `P_UPPER_HEX`. -/
def hexval (upper : Bool) (c : Byte) : Option Nat :=
  if 0x30 ≤ c.toNat ∧ c.toNat ≤ 0x39 then some (c.toNat - 0x30)
  else if 0x61 ≤ c.toNat ∧ c.toNat ≤ 0x66 then some (c.toNat - 0x61 + 10)
  else if 0x41 ≤ c.toNat ∧ c.toNat ≤ 0x46 ∧ upper = true then some (c.toNat - 0x41 + 10)
  else none

/-- `hexN(v, N)` of R71: `N` digits, the most significant first. -/
def hexN (v N : Nat) : List Byte := (List.range N).map fun k => hexdig ((v >>> (4 * (N - 1 - k))) &&& 0xF)

/-- The loop of R72, from the value `v` of the digits read so far. -/
def parseDigits (upper : Bool) : Nat → List Byte → Option Nat
  | v, [] => some v
  | v, c :: cs =>
    match hexval upper c with
    | none => none
    | some d => parseDigits upper ((v <<< 4) ||| d) cs

/-- `parsehex(s, off, N)` of R72: exactly the bytes `s[off .. off + N)` are consumed. Where they do not all exist there
is no value; every use is preceded by the check that they do (R48). -/
def parseHex (upper : Bool) (s : List Byte) (off N : Nat) : Option Nat :=
  if off + N ≤ s.length then parseDigits upper 0 ((s.drop off).take N) else none

/-- Start marker, ADDR, LEN and PAYLOAD of a frame: the bytes its checksum covers (R66, R74). -/
def frameBody (a : Word) (P : List Byte) : List Byte := colon :: (hexN a.toNat 8 ++ hexN P.length 4 ++ P)

/-- The frame with checksum field `c` (R66). -/
def frameWith (a : Word) (P : List Byte) (c : Word) : List Byte := frameBody a P ++ hexN c.toNat 8 ++ [cr, lf]

/-- `crc_field_offset` of R49: `n - 10`. -/
def crcOffset (F : List Byte) : Nat := F.length - 10

end Sys2Proof.Machine
end

