-- ==== Sys2Proof/Machine/Flags.lean ====
section
/-! DEFINITION. The status the block has. It has no condition codes and no arithmetic flags (10_state.md R31); its
only flag-like state is `TVALID` and its only status the response (R28, R62, R63); `RSP.OLEN` stands in Machine/Ops.lean,
where the end of an operation reads it. -/

namespace Sys2Proof.Machine

/-- `TVALID` as the bit of R22. -/
def State.tvalidBit (s : State) : BitVec 1 := BitVec.ofBool s.tvalid

/-- The error codes of R63; 0 is None. -/
def ErrorCode.code : ErrorCode → BitVec 3
  | .invalidStart => 1#3
  | .invalidTerminator => 2#3
  | .truncated => 3#3
  | .checksumMismatch => 4#3
  | .malformedField => 5#3
  | .payloadTooLarge => 6#3
  | .notInitialized => 7#3

/-- `RSP.ERR` (R62, R63). -/
def Response.err : Response → BitVec 3
  | .failed e => e.code
  | .done _ => 0#3

/-- `RSP.CRC`, zero after a failure (R30). -/
def Response.crc : Response → Word
  | .failed _ => 0#32
  | .done r => r.crc

/-- `RSP.ADDR`, zero after a failure (R30). -/
def Response.addr : Response → Word
  | .failed _ => 0#32
  | .done r => r.addr

/-- `RSP.LEN`, zero after a failure (R30). -/
def Response.len : Response → Half
  | .failed _ => 0#16
  | .done r => r.len

/-- How many bytes of `OB` are a result (R43): `RSP.OLEN`, and none where no response exists. -/
def State.validOutput (s : State) : Nat :=
  match s.response with
  | none => 0
  | some r => r.olen.toNat

end Sys2Proof.Machine
end

