-- ==== Sys2Proof/Machine/Decoder.lean ====
section
/-! DEFINITION. The frame decoder and integrity validator, DECODE (42_frame_decode.md R125 to R138). -/

namespace Sys2Proof.Machine

/-- Steps 1 to 3 and the first part of step 4 (R126 to R129): what needs no table. Gives the claimed checksum. -/
def checkStructure (upper : Bool) (F : List Byte) : Except ErrorCode Word :=
  if F[0]? ≠ some colon then .error .invalidStart
  else if F.length < 2 ∨ F[F.length - 2]? ≠ some cr ∨ F[F.length - 1]? ≠ some lf then .error .invalidTerminator
  else if F.length < Config.minFrame then .error .truncated
  else
    match parseHex upper F (crcOffset F) 8 with
    | none => .error .malformedField
    | some c => .ok (BitVec.ofNat 32 c)

/-- The fields of a frame that passed the checksum (R133, R134, R137). -/
structure Fields where
  /-- The parsed address. -/
  addr : Word
  /-- The parsed length, equal to the number of payload bytes. -/
  len : Nat
  /-- The payload bytes. -/
  payload : List Byte
  deriving DecidableEq, Repr

/-- Step 5 (R133 to R137): address, length, the agreement `13 + L = co`, then the payload; the first failure is the
one reported (R135). -/
def extractFields (upper : Bool) (F : List Byte) : Except ErrorCode Fields :=
  match parseHex upper F 1 8 with
  | none => .error .malformedField
  | some a =>
    match parseHex upper F 9 4 with
    | none => .error .malformedField
    | some L =>
      if 13 + L ≠ crcOffset F then .error .truncated
      else .ok { addr := BitVec.ofNat 32 a, len := L, payload := (F.drop 13).take L }

/-- DECODE (R125) under the parameters `p`. No field of the header is parsed before the checksum has been verified
(R132), and `OB` is written only when the operation succeeds (R140). -/
def decodeOp (p : Config.Params) (n : Word) (s : State) : Host.Outcome State Fault Refusal :=
  let F := s.inputBytes n.toNat
  match checkStructure p.upperHex F with
  | .error e => .next (s.raise e)
  | .ok claimed =>
    match s.requestTable p.tableInit with
    | .notBuilt => .next (s.raise .notInitialized)
    | .noValue => .fault .tableHoldsNoValue
    | .ready v t =>
      if crc32With v (F.take (crcOffset F)) ≠ claimed then .next (t.raise .checksumMismatch)
      else
        match extractFields p.upperHex F with
        | .error e => .next (t.raise e)
        | .ok f =>
          .next ((t.storeOutput f.payload).complete
            { crc := claimed, addr := f.addr, len := BitVec.ofNat 16 f.len, olen := BitVec.ofNat 32 f.len })

/-- DECODE with the parameters of this spec. -/
def execDecode (n : Word) (s : State) : Host.Outcome State Fault Refusal := decodeOp Config.params n s

end Sys2Proof.Machine
end

