-- ==== Sys2Proof/Machine/Encoder.lean ====
section
/-! DEFINITION. The frame encoder, ENCODE (41_frame_encode.md R110 to R118). -/

namespace Sys2Proof.Machine

/-- ENCODE (R110) under the parameters `p`. PayloadTooLarge is found before a byte of `OB` is written (R111);
NotInitialized after step 1, which may have written some that are no result (R115, R175 (e)): raising an error leaves
no byte of `OB` stated. -/
def encodeOp (p : Config.Params) (a m : Word) (s : State) : Host.Outcome State Fault Refusal :=
  if Config.maxPayload < m.toNat then .next (s.raise .payloadTooLarge)
  else
    match s.requestTable p.tableInit with
    | .notBuilt => .next (s.raise .notInitialized)
    | .noValue => .fault .tableHoldsNoValue
    | .ready v t =>
      let P := s.inputBytes m.toNat
      let c := crc32With v (frameBody a P)
      .next ((t.storeOutput (frameWith a P c)).complete
        { crc := c, addr := 0, len := 0, olen := BitVec.ofNat 32 (Config.minFrame + m.toNat) })

/-- ENCODE with the parameters of this spec. -/
def execEncode (a m : Word) (s : State) : Host.Outcome State Fault Refusal := encodeOp Config.params a m s

end Sys2Proof.Machine
end

