-- ==== Sys2Proof/Machine/Engine.lean ====
section
/-! DEFINITION. The operations of the CRC-32 engine: BUILD_TABLE (40_crc32_engine.md R93) and CHECKSUM (R97). -/

namespace Sys2Proof.Machine

/-- BUILD_TABLE (R93): the table and `TVALID` written, every response field zero; it cannot fail. -/
def execBuildTable (s : State) : Host.Outcome State Fault Refusal :=
  .next (s.buildTable.complete { crc := 0, addr := 0, len := 0, olen := 0 })

/-- CHECKSUM (R97) under the parameters `p`: NotInitialized, or `RSP.CRC = crc32(IB[0 .. m))`. -/
def checksumOp (p : Config.Params) (m : Word) (s : State) : Host.Outcome State Fault Refusal :=
  match s.requestTable p.tableInit with
  | .notBuilt => .next (s.raise .notInitialized)
  | .noValue => .fault .tableHoldsNoValue
  | .ready v t =>
    .next (t.complete { crc := crc32With v (s.inputBytes m.toNat), addr := 0, len := 0, olen := 0 })

/-- CHECKSUM with the parameters of this spec. -/
def execChecksum (m : Word) (s : State) : Host.Outcome State Fault Refusal := checksumOp Config.params m s

end Sys2Proof.Machine
end

