-- ==== Sys2Proof/Machine/HostPort.lean ====
section
/-! DEFINITION. What the host does to the block between steps (70_reset_and_hazards.md R190 to R201): it presents a
request, supplies input bytes, asserts reset and reads results. What the host must not do is refused by name. -/

namespace Sys2Proof.Machine

/-- The host presents a request: only when the previous one has been answered (R197, U7: refused, not queued). -/
def State.presentRequest (r : Request) (s : State) : Host.Outcome State Fault Refusal :=
  if s.request.isSome then .refused .requestWhileBusy else .next { s with request := some r }

/-- `k` is an offset of the buffers (R40). As in `fitsBuffer`, the first disjunct follows from the second. -/
def offsetExists (p : Config.Params) (k : Nat) : Bool := decide (k < Config.maxFrame) || decide (k < p.bufBytes)

/-- The host writes `IB[k]`, never while a request is pending (R198, U8). -/
def State.supplyInput (p : Config.Params) (k : Nat) (b : Byte) (s : State) : Host.Outcome State Fault Refusal :=
  if s.request.isSome then .refused .bufferInUse
  else if offsetExists p k then .next { s with ib := s.ib.write k b }
  else .refused .offsetBeyondCapacity

/-- The platform asserts the reset input (R190); the next step takes it. -/
def State.assertReset (s : State) : State := { s with resetIn := true }

/-- The result byte the host reads at `OB[k]`: none while a request is pending (R198) and none at or beyond `RSP.OLEN`
(R43, R200). -/
def State.resultByte (s : State) (k : Nat) : Option Byte :=
  if s.request.isSome then none
  else if k < s.validOutput then s.ob.read k
  else none

/-- The bytes of `OB` that are a result, in order. -/
def State.resultBytes (s : State) : List (Option Byte) := (List.range s.validOutput).map s.resultByte

/-- The request of an opcode-table word, pending at the port, with reset not asserted (log entry 10). -/
def State.placeWord (s : State) (w : Nat) : State := { s with request := requestOfWord w, resetIn := false }

end Sys2Proof.Machine
end

