-- ==== Sys2Proof/Machine/Dispatch.lean ====
section
/-! DEFINITION. One arm per operation (30_encoding.md R60). -/

namespace Sys2Proof.Machine

def exec (i : Instr) (s : State) : Host.Outcome State Fault Refusal :=
  match i with
  | .buildTable => Sys2Proof.Machine.execBuildTable s
  | .checksum dlen => Sys2Proof.Machine.execChecksum dlen s
  | .encode addr dlen => Sys2Proof.Machine.execEncode addr dlen s
  | .decode dlen => Sys2Proof.Machine.execDecode dlen s

end Sys2Proof.Machine
end

