-- ==== Sys2Proof/Machine/Step.lean ====
section
/-! DEFINITION. One step: reset where it is asserted (70_reset_and_hazards.md R190), else the pending request as one
whole operation (00_scope.md R11), else nothing. -/

namespace Sys2Proof.Machine

def step (s : State) : Host.Outcome State Fault Refusal :=
  if s.resetIn then .next (s.takeReset Config.params.tableInit)
  else
    match s.request with
    | none => stepIdle s
    | some r =>
      match decodeRequest Config.params r with
      | .error e => refuseRequest e
      | .ok i => exec i s

/-- `s` with the opcode-table word `w` as the pending request, operand fields zero. -/
def State.withFetchWord (s : State) (_nbits w : Nat) : State := s.placeWord w

end Sys2Proof.Machine
end

