-- ==== Sys2Proof/Safety.lean ====
section
/-! DEFINITION. The terms claims are stated in: the table built, the invariant of the machine, the operations
under other parameters (R7, R8), accepted and canonical frames (30_encoding.md R76), the bit-serial form of the CRC
(40_crc32_engine.md R102). -/

namespace Sys2Proof.Machine

/-- `TVALID = 1` and `TABLE[i] = T(i)` for every `i` (R22, R23). -/
abbrev State.Built (s : State) : Prop := s.tvalid = true ∧ s.table = some builtTable

/-- The invariant: `TVALID = 0` with no table or `TVALID = 1` with the built one (R23), both buffers in canonical form,
and where there is a response, the bytes of `OB` that are stated are the ones it counts as a result: no more and no less
(R43). -/
structure State.Inv (s : State) : Prop where
  tableCoherent : (s.tvalid = false ∧ s.table = none) ∨ s.Built
  inputSorted : Memory.wf s.ib
  outputSorted : Memory.wf s.ob
  outputExact : ∀ r, s.response = some r → ∀ k, (s.ob.read k).isSome = true ↔ k < r.olen.toNat

/-- The operation ended in state `t` with response `r`. -/
def Answers (o : Host.Outcome State Fault Refusal) (t : State) (r : Response) : Prop :=
  o = .next t ∧ t.response = some r

/-- What an operation does under the parameters `p` (R7, R8, R193); under `Config.params` it is exec. -/
def execUnder (p : Config.Params) : Instr → State → Host.Outcome State Fault Refusal
  | .buildTable, s => execBuildTable s
  | .checksum m, s => checksumOp p m s
  | .encode a m, s => encodeOp p a m s
  | .decode n, s => decodeOp p n s

/-- Conditions (1) to (3) of R76: long enough, start marker, terminator. -/
structure Framed (F : List Byte) : Prop where
  long : Config.minFrame ≤ F.length
  start : F[0]? = some colon
  beforeLast : F[F.length - 2]? = some cr
  last : F[F.length - 1]? = some lf

/-- All eight conditions of R76, with the values of the three fields. -/
structure AcceptedAs (upper : Bool) (F : List Byte) (c a L : Nat) : Prop where
  framed : Framed F
  claimed : parseHex upper F (crcOffset F) 8 = some c
  verified : BitVec.ofNat 32 c = crc32 (F.take (crcOffset F))
  address : parseHex upper F 1 8 = some a
  length : parseHex upper F 9 4 = some L
  agrees : 13 + L = crcOffset F

/-- An accepted frame (R76). -/
def Accepted (upper : Bool) (F : List Byte) : Prop := ∃ c a L, AcceptedAs upper F c a L

/-- A digit `0` to `9` or `a` to `f`. -/
def isLowerDigit (c : Byte) : Bool :=
  decide (0x30 ≤ c.toNat ∧ c.toNat ≤ 0x39) || decide (0x61 ≤ c.toNat ∧ c.toNat ≤ 0x66)

/-- Every byte of the three hexadecimal fields is a lower-case digit (R76): ADDR and LEN at 1 to 12, CRC from
`n - 10` on. -/
def LowerFields (F : List Byte) : Prop :=
  (∀ k, 1 ≤ k → k < 13 → (F[k]?.map isLowerDigit) = some true) ∧
  ∀ k, k < 8 → (F[crcOffset F + k]?.map isLowerDigit) = some true

/-- The frame of the message with address `a` and payload `P` (R110). -/
def encodedFrame (a : Word) (P : List Byte) : List Byte := frameWith a P (crc32 (frameBody a P))

/-- One step of the bit-serial CRC of R102. -/
def serialStep (x : Word) : Word := if x.getLsbD 0 then (x >>> 1) ^^^ poly else x >>> 1

/-- `n` steps of the bit-serial CRC. -/
def serialSteps : Nat → Word → Word
  | 0, x => x
  | n + 1, x => serialSteps n (serialStep x)

end Sys2Proof.Machine
end

