-- ==== Sys2Proof/Certificates/Slice0/Obligations.lean ====
section
/-! DEFINITION. The statements for the provers. `F` is always the frame `IB[0 .. n)` of a DECODE request. Where an
equation for the next state begins with `∃ b`, it leaves open what the model states of `OB` afterwards (`ob := b`):
`EngineOperationsFrame`, `EncodeFrame`, `DecodeFrame` and `RequestEndsInOneResponse` say that for every outcome. -/

open Sys2Proof Sys2Proof.Machine

/-! ### Requests and steps -/

/-- R60: the four codes select the four operations, and there is no other code. -/
def Obligations.OperationCodesSelectOperations : Prop :=
  (∀ a d : Word, fitsBuffer Config.params d = true →
    decodeRequest Config.params { op := 0b00#2, addr := a, dlen := d } = .ok .buildTable ∧
    decodeRequest Config.params { op := 0b01#2, addr := a, dlen := d } = .ok (.checksum d) ∧
    decodeRequest Config.params { op := 0b10#2, addr := a, dlen := d } = .ok (.encode a d) ∧
    decodeRequest Config.params { op := 0b11#2, addr := a, dlen := d } = .ok (.decode d)) ∧
  ∀ c : BitVec 2, c = 0b00#2 ∨ c = 0b01#2 ∨ c = 0b10#2 ∨ c = 0b11#2

/-- Decoding the encoding of a well-formed operation gives it back, for every operand and every capacity. -/
def Obligations.RequestRoundTrip : Prop :=
  ∀ (p : Config.Params) (i : Instr), i.wf p = true → decodeRequest p (encodeRequest i) = .ok i

/-- A decoded operation is well-formed and carries the request's code and the fields it reads, unchanged. -/
def Obligations.DecodedOperationCarriesFields : Prop :=
  ∀ (p : Config.Params) (r : Request) (i : Instr), decodeRequest p r = .ok i →
    i.wf p = true ∧ (encodeRequest i).op = r.op ∧
    (r.op ≠ 0b00#2 → (encodeRequest i).dlen = r.dlen) ∧
    (r.op = 0b10#2 → (encodeRequest i).addr = r.addr)

/-- R29, last sentence: two requests that agree in the fields their operation reads ask for the same operation. -/
def Obligations.UnreadFieldsHaveNoEffect : Prop :=
  ∀ (p : Config.Params) (r r' : Request), r.op = r'.op →
    (r.op ≠ 0b00#2 → r.dlen = r'.dlen) → (r.op = 0b10#2 → r.addr = r'.addr) →
    decodeRequest p r = decodeRequest p r'

/-- R77 (e): a request is turned away exactly where the length its operation reads is beyond the capacity. That
BUILD_TABLE, which reads no length, is never turned away is the model's reading of R29 (log entry 8). -/
def Obligations.RequestRefusedExactlyBeyondCapacity : Prop :=
  ∀ (p : Config.Params) (r : Request),
    decodeRequest p r = .error .lengthBeyondCapacity ↔ (r.op ≠ 0b00#2 ∧ p.bufBytes < r.dlen.toNat)

/-- Where reset is not asserted and a request is pending, a step is exec of the decoded operation (exec itself gives
the response and makes the block idle), or the refusal of a request that does not decode (log entry 1). -/
def Obligations.StepRunsDecodedRequest : Prop :=
  ∀ (s : State) (r : Request), s.resetIn = false → s.request = some r →
    step s = match decodeRequest Config.params r with
      | .ok i => exec i s
      | .error _ => .refused .lengthBeyondCapacity

/-- An idle block stays as it is (log entry 1). -/
def Obligations.IdleStepChangesNothing : Prop :=
  ∀ s : State, s.resetIn = false → s.request = none → step s = .next s

/-- R190, R191: reset clears TVALID, leaves no table, no request and no response, and does not touch the buffers (of
`OB` where a request was abandoned nothing is said: U9). That the step takes the input back is log entry 12. -/
def Obligations.ResetStepEffect : Prop :=
  ∀ s : State, s.resetIn = true → ∃ t, step s = .next t ∧
    t.tvalid = false ∧ t.table = none ∧ t.request = none ∧ t.response = none ∧ t.resetIn = false ∧
    (∀ k, t.ib.read k = s.ib.read k) ∧ (s.request = none → ∀ k, t.ob.read k = s.ob.read k)

/-- R34: after reset TVALID is 0, TABLE holds no value, the block is idle and no response exists. -/
def Obligations.ResetStateValues : Prop :=
  State.reset.tvalidBit = 0#1 ∧ State.reset.table = none ∧ State.reset.request = none ∧ State.reset.response = none

/-- R193: what reset leaves under each initialisation policy. -/
def Obligations.ResetUnderEachPolicy : Prop :=
  ∀ s : State, (s.takeReset .eager).Built ∧
    ((s.takeReset .explicit).tvalid = false ∧ (s.takeReset .explicit).table = none) ∧
    ((s.takeReset .lazy).tvalid = false ∧ (s.takeReset .lazy).table = none)

/-! ### The CRC-32 engine -/

/-- R91: the values the rule gives to check a model against, and that the table BUILD_TABLE writes lists `T` (R92). -/
def Obligations.TableEntryKnownValues : Prop :=
  tableEntry 0#8 = 0x00000000#32 ∧ tableEntry 1#8 = 0x77073096#32 ∧ tableEntry 2#8 = 0xEE0E612C#32 ∧
  tableEntry 128#8 = 0xEDB88320#32 ∧ tableEntry 255#8 = 0x2D02EF8D#32 ∧
  ∀ i : Byte, tableRead builtTable i = tableEntry i

/-- R102 (c): `T` is linear over exclusive OR. -/
def Obligations.TableEntryIsLinear : Prop :=
  ∀ i j : Byte, tableEntry (i ^^^ j) = tableEntry i ^^^ tableEntry j

/-- R102 (a) and (b): a table entry is eight bit-serial steps from its index, and the per-byte update is eight
bit-serial steps of the accumulator exclusive-or the byte. -/
def Obligations.CrcStepIsEightSerialSteps : Prop :=
  (∀ i : Byte, tableEntry i = serialSteps 8 (i.setWidth 32)) ∧
  ∀ (acc : Word) (c : Byte), crcStep builtTable acc c = serialSteps 8 (acc ^^^ c.setWidth 32)

/-- The table-driven checksum of any byte sequence is the bit-serial reflected CRC-32 (R90, R96, R102). -/
def Obligations.ChecksumIsBitSerialCrc : Prop :=
  ∀ bs : List Byte, crc32 bs =
    ~~~(bs.foldl (fun x c => serialSteps 8 (x ^^^ c.setWidth 32)) 0xFFFFFFFF#32)

/-- R92, R93: BUILD_TABLE, its encoding, its effect from any state whatever, and the 256 entries it writes. Its result
statement and its completion statement. That code 00 decodes to BUILD_TABLE for a `REQ.DLEN` beyond the capacity too is
the model's choice (log entry 8, between R29 and R77 (e)); that no byte of `OB` is stated afterwards is R43 as log entry
5 reads it. -/
def Obligations.BuildTableEffect : Prop :=
  (∀ (p : Config.Params) (a d : Word), decodeRequest p { op := 0b00#2, addr := a, dlen := d } = .ok .buildTable) ∧
  (∀ s : State, exec .buildTable s =
    .next { s with
      tvalid := true, table := some builtTable, request := none, ob := [],
      response := some (.done { crc := 0, addr := 0, len := 0, olen := 0 }) }) ∧
  ∀ i : Byte, tableRead builtTable i = tableEntry i

/-- R94, R150: what BUILD_TABLE leaves of the persistent state does not depend on the state before it, and on a
built block it changes nothing of it. -/
def Obligations.BuildTableIsDeterministic : Prop :=
  ∀ s s' t t' : State, exec .buildTable s = .next t → exec .buildTable s' = .next t' →
    t.tvalid = t'.tvalid ∧ t.table = t'.table ∧ (s.Built → t.tvalid = s.tvalid ∧ t.table = s.table)

/-- R97: CHECKSUM, its encoding, its effect with the table built (completion) and without. -/
def Obligations.ChecksumEffect : Prop :=
  (∀ (p : Config.Params) (a m : Word), m.toNat ≤ p.bufBytes →
    decodeRequest p { op := 0b01#2, addr := a, dlen := m } = .ok (.checksum m)) ∧
  ∀ (s : State) (m : Word),
    (s.Built → ∃ b, exec (.checksum m) s =
      .next { s with
        ob := b, request := none,
        response := some (.done { crc := crc32 (s.inputBytes m.toNat), addr := 0, len := 0, olen := 0 }) }) ∧
    (s.tvalid = false → ∃ b, exec (.checksum m) s =
      .next { s with ob := b, request := none, response := some (.failed .notInitialized) })

/-- R99, R151: the checksum of nothing is 0, and of the nine bytes 0x31 to 0x39 it is 0xCBF43926. -/
def Obligations.ChecksumKnownVectors : Prop :=
  ∀ s : State, s.Built →
    (∃ t, Answers (exec (.checksum 0#32) s) t (.done { crc := 0x00000000#32, addr := 0, len := 0, olen := 0 })) ∧
    (s.inputBytes 9 = [0x31#8, 0x32#8, 0x33#8, 0x34#8, 0x35#8, 0x36#8, 0x37#8, 0x38#8, 0x39#8] →
      ∃ t, Answers (exec (.checksum 9#32) s) t (.done { crc := 0xCBF43926#32, addr := 0, len := 0, olen := 0 }))

/-! ### Hexadecimal fields -/

/-- R70: the digits are 22 byte values with upper case and 16 without, each with its value; `hexval` inverts
`hexdig` (R69). -/
def Obligations.HexDigitsAndValues : Prop :=
  ((List.range 256).filter fun n => (hexval true (BitVec.ofNat 8 n)).isSome).length = 22 ∧
  ((List.range 256).filter fun n => (hexval false (BitVec.ofNat 8 n)).isSome).length = 16 ∧
  (∀ upper, ∀ v < 10, hexval upper (BitVec.ofNat 8 (0x30 + v)) = some v) ∧
  (∀ upper, ∀ v < 6, hexval upper (BitVec.ofNat 8 (0x61 + v)) = some (10 + v)) ∧
  (∀ v < 6, hexval true (BitVec.ofNat 8 (0x41 + v)) = some (10 + v)) ∧
  ∀ v < 16, hexval false (hexdig v) = some v

/-- R71, R72: a field parses back to the value it was written from, wherever it lies in a sequence. -/
def Obligations.ParseHexInvertsHexN : Prop :=
  ∀ (upper : Bool) (v N : Nat) (before after : List Byte), v < 16 ^ N →
    parseHex upper (before ++ hexN v N ++ after) before.length N = some v

/-- R72: a field inside the sequence has no value exactly where one of its bytes is no digit, and a value it has is
below `16 ^ N`. -/
def Obligations.ParseHexAllOrNothing : Prop :=
  ∀ (upper : Bool) (F : List Byte) (off N : Nat), off + N ≤ F.length →
    (parseHex upper F off N = none ↔ ∃ k < N, ∃ b, F[off + k]? = some b ∧ hexval upper b = none) ∧
    ∀ v, parseHex upper F off N = some v → v < 16 ^ N

/-! ### The frame encoder -/

/-- R110: ENCODE with the table built and a payload that fits. Its result statement and its completion statement.
Of `OB` beyond the frame nothing is stated after it (R43; log entry 5). -/
def Obligations.EncodeEffect : Prop :=
  ∀ (s : State) (a m : Word) (body : List Byte), s.Built → m.toNat ≤ 65535 →
    body = [0x3A#8] ++ hexN a.toNat 8 ++ hexN m.toNat 4 ++ s.inputBytes m.toNat →
    exec (.encode a m) s =
      .next { s with
        request := none,
        ob := Memory.ofBytes 0 (body ++ hexN (crc32 body).toNat 8 ++ [0x0D#8, 0x0A#8]),
        response := some (.done { crc := crc32 body, addr := 0, len := 0, olen := BitVec.ofNat 32 (23 + m.toNat) }) }

/-- R111: PayloadTooLarge when and only when the payload has more than 65535 bytes, whether or not the table is
built, and then no byte of `OB` is stated (R43, U6, log entry 5); 65535 bytes give the LEN field `ffff` and a frame of
65558 bytes. -/
def Obligations.EncodePayloadTooLarge : Prop :=
  ∀ (s : State) (a m : Word),
    (65535 < m.toNat → exec (.encode a m) s =
      .next { s with ob := [], request := none, response := some (.failed .payloadTooLarge) }) ∧
    (m.toNat ≤ 65535 → ∀ t, ¬ Answers (exec (.encode a m) s) t (.failed .payloadTooLarge)) ∧
    (s.Built → m.toNat = 65535 → ∃ t q, Answers (exec (.encode a m) s) t (.done q) ∧ q.olen.toNat = 65558 ∧
      ∀ k < 4, t.ob.read (9 + k) = some 0x66#8)

/-- R115: NotInitialized where the table is not built and the payload fits; the payload's length is checked first; no
byte of OB is a result. -/
def Obligations.EncodeNotInitialized : Prop :=
  ∀ (s : State) (a m : Word), s.tvalid = false →
    (m.toNat ≤ 65535 → ∃ t, Answers (exec (.encode a m) s) t (.failed .notInitialized) ∧ t.validOutput = 0 ∧
      t.tvalid = s.tvalid ∧ t.table = s.table ∧ t.ib = s.ib ∧ t.request = none) ∧
    (65535 < m.toNat → ∃ t, Answers (exec (.encode a m) s) t (.failed .payloadTooLarge) ∧ t.validOutput = 0)

/-- R66, R74: the frame ENCODE leaves in `OB`, byte for byte by offset, and what its checksum covers. -/
def Obligations.EncodeFrameLayout : Prop :=
  ∀ (s : State) (a m : Word), s.Built → m.toNat ≤ 65535 → ∃ t q,
    Answers (exec (.encode a m) s) t (.done q) ∧ q.olen.toNat = 23 + m.toNat ∧
    t.ob.read 0 = some 0x3A#8 ∧
    (∀ k < 8, t.ob.read (1 + k) = some (hexdig (a.toNat / 16 ^ (7 - k) % 16))) ∧
    (∀ k < 4, t.ob.read (9 + k) = some (hexdig (m.toNat / 16 ^ (3 - k) % 16))) ∧
    (∀ k < m.toNat, t.ob.read (13 + k) = some (s.inputByte k)) ∧
    (∀ k < 8, t.ob.read (13 + m.toNat + k) = some (hexdig (q.crc.toNat / 16 ^ (7 - k) % 16))) ∧
    t.ob.read (21 + m.toNat) = some 0x0D#8 ∧ t.ob.read (22 + m.toNat) = some 0x0A#8 ∧
    ∀ covered : List Byte, covered.length = 13 + m.toNat →
      (∀ k < 13 + m.toNat, t.ob.read k = covered[k]?) → q.crc = crc32 covered

/-! ### The frame decoder, check by check in the order of R174 -/

/-- R126: no first byte, or one that is not the start marker, whatever else and whether or not the table is built. -/
def Obligations.DecodeInvalidStart : Prop :=
  ∀ (s : State) (n : Word), (n = 0 ∨ s.inputByte 0 ≠ 0x3A#8) →
    ∃ b, exec (.decode n) s = .next { s with ob := b, request := none, response := some (.failed .invalidStart) }

/-- R127: fewer than two bytes, or another pair at the end. -/
def Obligations.DecodeInvalidTerminator : Prop :=
  ∀ (s : State) (n : Word), 1 ≤ n.toNat → s.inputByte 0 = 0x3A#8 →
    (n.toNat < 2 ∨ s.inputByte (n.toNat - 2) ≠ 0x0D#8 ∨ s.inputByte (n.toNat - 1) ≠ 0x0A#8) →
    ∃ b, exec (.decode n) s = .next { s with ob := b, request := none, response := some (.failed .invalidTerminator) }

/-- R128: start marker and terminator right, fewer than 23 bytes. -/
def Obligations.DecodeTruncatedShort : Prop :=
  ∀ (s : State) (n : Word), 2 ≤ n.toNat → n.toNat < 23 → s.inputByte 0 = 0x3A#8 →
    s.inputByte (n.toNat - 2) = 0x0D#8 → s.inputByte (n.toNat - 1) = 0x0A#8 →
    ∃ b, exec (.decode n) s = .next { s with ob := b, request := none, response := some (.failed .truncated) }

/-- R129: a byte of the checksum field that is no digit, whether or not the table is built. -/
def Obligations.DecodeMalformedChecksumField : Prop :=
  ∀ (s : State) (n : Word), Framed (s.inputBytes n.toNat) →
    (∃ k < 8, hexval true (s.inputByte (n.toNat - 10 + k)) = none) →
    ∃ b, exec (.decode n) s = .next { s with ob := b, request := none, response := some (.failed .malformedField) }

/-- R130: NotInitialized after the claimed checksum has been parsed. -/
def Obligations.DecodeNotInitialized : Prop :=
  ∀ (s : State) (n : Word), s.tvalid = false → Framed (s.inputBytes n.toNat) →
    (∀ k < 8, (hexval true (s.inputByte (n.toNat - 10 + k))).isSome = true) →
    ∃ b, exec (.decode n) s = .next { s with ob := b, request := none, response := some (.failed .notInitialized) }

/-- R131, R132: the hard gate. Whatever the header fields hold, a differing checksum is what is reported. -/
def Obligations.DecodeChecksumMismatch : Prop :=
  ∀ (s : State) (n : Word) (F : List Byte) (c : Nat), s.Built → F = s.inputBytes n.toNat → Framed F →
    parseHex true F (n.toNat - 10) 8 = some c → c ≠ (crc32 (F.take (n.toNat - 10))).toNat →
    ∃ b, exec (.decode n) s = .next { s with ob := b, request := none, response := some (.failed .checksumMismatch) }

/-- R133 to R135: a byte of ADDR or LEN that is no digit, in a frame that passed the checksum, whatever LEN would
have said. -/
def Obligations.DecodeMalformedHeader : Prop :=
  ∀ (s : State) (n : Word) (F : List Byte), s.Built → F = s.inputBytes n.toNat → Framed F →
    parseHex true F (n.toNat - 10) 8 = some (crc32 (F.take (n.toNat - 10))).toNat →
    (∃ k, 1 ≤ k ∧ k < 13 ∧ hexval true (s.inputByte k) = none) →
    ∃ b, exec (.decode n) s = .next { s with ob := b, request := none, response := some (.failed .malformedField) }

/-- R136: a LEN that disagrees with the bytes present, in either direction. -/
def Obligations.DecodeTruncatedLength : Prop :=
  ∀ (s : State) (n : Word) (F : List Byte) (a L : Nat), s.Built → F = s.inputBytes n.toNat → Framed F →
    parseHex true F (n.toNat - 10) 8 = some (crc32 (F.take (n.toNat - 10))).toNat →
    parseHex true F 1 8 = some a → parseHex true F 9 4 = some L → 13 + L ≠ n.toNat - 10 →
    ∃ b, exec (.decode n) s = .next { s with ob := b, request := none, response := some (.failed .truncated) }

/-- R125, R137, R138: an accepted frame, with the table built. Its result statement and its completion statement. Of
`OB` beyond the payload nothing is stated after it (R43; log entry 5). -/
def Obligations.DecodeAcceptedFrame : Prop :=
  ∀ (s : State) (n : Word) (F : List Byte) (c a L : Nat), s.Built → F = s.inputBytes n.toNat →
    AcceptedAs true F c a L →
    exec (.decode n) s =
      .next { s with
        request := none,
        ob := Memory.ofBytes 0 ((F.drop 13).take L),
        response := some (.done
          { crc := BitVec.ofNat 32 c, addr := BitVec.ofNat 32 a, len := BitVec.ofNat 16 L,
            olen := BitVec.ofNat 32 L }) }

/-- R76: with the table built, DECODE succeeds exactly on the accepted frames. -/
def Obligations.DecodeSucceedsExactlyOnAccepted : Prop :=
  ∀ (s : State) (n : Word), s.Built →
    ((∃ t q, Answers (exec (.decode n) s) t (.done q)) ↔ Accepted true (s.inputBytes n.toNat))

/-- R139: a successful DECODE carries the checksum of the frame, equal to its checksum field, and the payload length
of R137 with the payload in `OB`. -/
def Obligations.DecodedMessageIsVerified : Prop :=
  ∀ (s t : State) (n : Word) (F : List Byte) (q : Result), s.Inv → F = s.inputBytes n.toNat →
    Answers (exec (.decode n) s) t (.done q) →
    parseHex true F (n.toNat - 10) 8 = some q.crc.toNat ∧ q.crc = crc32 (F.take (n.toNat - 10)) ∧
    q.len.toNat = n.toNat - 23 ∧ q.olen.toNat = n.toNat - 23 ∧
    ∀ k < n.toNat - 23, t.ob.read k = some (s.inputByte (13 + k))

/-- R142: from every state of the invariant and for every length DECODE ends, with success or one of its six errors;
on more than 65558 bytes never with success. -/
def Obligations.DecodeAlwaysAnswers : Prop :=
  ∀ (s : State) (n : Word), s.Inv → ∃ t r, Answers (exec (.decode n) s) t r ∧
    r ≠ .failed .payloadTooLarge ∧ (65558 < n.toNat → ∃ e, r = .failed e)

/-- R76: the lengths of accepted frames, and that without upper case the accepted frames are the canonical ones. -/
def Obligations.AcceptedFrameForms : Prop :=
  ∀ F : List Byte, (∀ upper, Accepted upper F → 23 ≤ F.length ∧ F.length ≤ 65558) ∧
    (Accepted false F ↔ (Accepted true F ∧ LowerFields F))

/-! ### Properties of the operations together -/

/-- R152: decoding the frame ENCODE produced, in any built state that holds it in its input buffer, gives the address,
the payload and the checksum of that frame. Of `OB` beyond the payload nothing is stated after it (R43; log entry 5). -/
def Obligations.FrameRoundTrip : Prop :=
  ∀ (s t u : State) (a m : Word) (q : Result), s.Built → m.toNat ≤ 65535 →
    Answers (exec (.encode a m) s) t (.done q) → u.Built →
    (∀ k < q.olen.toNat, t.ob.read k = some (u.inputByte k)) →
    exec (.decode q.olen) u =
      .next { u with
        request := none,
        ob := Memory.ofBytes 0 (s.inputBytes m.toNat),
        response := some (.done { crc := q.crc, addr := a, len := BitVec.ofNat 16 m.toNat, olen := m }) }

/-- R157, first sentence: encoding what DECODE gave for a canonical frame gives that frame again. -/
def Obligations.CanonicalFrameReencodes : Prop :=
  ∀ (s t u : State) (n : Word) (q : Result), s.Built → Answers (exec (.decode n) s) t (.done q) →
    LowerFields (s.inputBytes n.toNat) → u.Built →
    (∀ k < q.olen.toNat, t.ob.read k = some (u.inputByte k)) →
    ∃ v, Answers (exec (.encode q.addr q.olen) u) v (.done { crc := q.crc, addr := 0, len := 0, olen := n }) ∧
      ∀ k < n.toNat, v.ob.read k = some (s.inputByte k)

/-- R158: two messages with the same frame are the same message. -/
def Obligations.EncodeIsInjective : Prop :=
  ∀ (a a' : Word) (P P' : List Byte), P.length ≤ 65535 → P'.length ≤ 65535 →
    encodedFrame a P = encodedFrame a' P' → a = a' ∧ P = P'

/-- R153: an accepted frame changed in one byte of its header or payload is reported as ChecksumMismatch, with
certainty. -/
def Obligations.SingleByteChangeIsDetected : Prop :=
  ∀ (s s' : State) (n : Word) (k : Nat), s.Built → s'.Built → Accepted true (s.inputBytes n.toNat) →
    1 ≤ k → k < n.toNat - 10 → s'.inputByte k ≠ s.inputByte k →
    (∀ j < n.toNat, j ≠ k → s'.inputByte j = s.inputByte j) →
    ∃ b, exec (.decode n) s' = .next { s' with ob := b, request := none, response := some (.failed .checksumMismatch) }

/-- R159: with the table built, the response and all that is stated of `OB` depend on the request's operands and input
bytes only, not on earlier responses, on earlier output or on anything else in the state. That nothing of an earlier
output stays stated, after operations that do not write `OB` too, is the reading of R43 in log entry 5. -/
def Obligations.OperationsAreIndependent : Prop :=
  ∀ (i : Instr) (s s' t t' : State), s.Built → s'.Built →
    (∀ k < (encodeRequest i).dlen.toNat, s.inputByte k = s'.inputByte k) →
    exec i s = .next t → exec i s' = .next t' →
    t.response = t'.response ∧ t.ob = t'.ob

/-- R193: whatever the policies, operations that succeed in two states of the invariant with the same input bytes, the
table built in both, in one or in neither, give the same results and leave the table built. Under `lazy`, and in a built
state under every policy (under `eager` every state after reset is one, `ResetUnderEachPolicy`), an operation succeeds
wherever it succeeds elsewhere, and NotInitialized does not occur. That they leave `OB` stated alike is for BUILD_TABLE
and CHECKSUM the reading of R43 in log entry 5; the form of the parameter is log entry 6. -/
def Obligations.PoliciesAgreeOnSuccess : Prop :=
  ∀ (p p' : Config.Params) (i : Instr) (s s' : State), s.Inv → s'.Inv → p.upperHex = p'.upperHex →
    (∀ k < (encodeRequest i).dlen.toNat, s.inputByte k = s'.inputByte k) →
    (∀ t t' q q', Answers (execUnder p i s) t (.done q) → Answers (execUnder p' i s') t' (.done q') →
      q = q' ∧ t.ob = t'.ob ∧ t.Built ∧ t'.Built) ∧
    (p.tableInit = .lazy ∨ s.Built →
      (∀ t' q', Answers (execUnder p' i s') t' (.done q') → ∃ t, Answers (execUnder p i s) t (.done q')) ∧
      ∀ t, ¬ Answers (execUnder p i s) t (.failed .notInitialized))

/-! ### The whole machine -/

/-- Every step keeps the invariant: TVALID and TABLE coherent (R23), both buffers canonical, and `OB` stated exactly where
the response counts a result (R43; log entry 5). -/
def Obligations.StepKeepsInvariant : Prop :=
  ∀ s t : State, s.Inv → step s = .next t → t.Inv

/-- The invariant holds right after reset. -/
def Obligations.ResetSatisfiesInvariant : Prop := State.reset.Inv

/-- What the host may do at the port keeps the invariant. -/
def Obligations.HostPortKeepsInvariant : Prop :=
  ∀ (s t : State) (p : Config.Params) (r : Request) (k : Nat) (b : Byte), s.Inv →
    s.assertReset.Inv ∧ (s.presentRequest r = .next t → t.Inv) ∧ (s.supplyInput p k b = .next t → t.Inv)

/-- R23, R177: from a state of the invariant no step faults; no operation reads a table that holds no value. -/
def Obligations.StepNeverFaults : Prop :=
  ∀ (s : State) (f : Fault), s.Inv → step s ≠ .fault f

/-- R22, R24: while reset is not asserted a built table stays built, with the same 256 values. -/
def Obligations.BuiltTableLastsUntilReset : Prop :=
  ∀ s t : State, s.Built → s.resetIn = false → step s = .next t → t.Built

/-- R24: CHECKSUM, ENCODE and DECODE write neither TVALID nor TABLE. -/
def Obligations.OnlyBuildTableWritesTable : Prop :=
  ∀ (i : Instr) (s t : State), i ≠ .buildTable → exec i s = .next t → t.tvalid = s.tvalid ∧ t.table = s.table

/-- R42: no step, reset among them, changes a byte of the input buffer. -/
def Obligations.InputBufferNeverWritten : Prop :=
  ∀ (s t : State), step s = .next t → ∀ k, t.ib.read k = s.ib.read k

/-- R30, and R175 (b), (c), (d), (f): an operation that fails leaves TVALID, TABLE and IB as they were and the block idle;
the response carries a nonzero error code, every other field reads as zero and no byte of OB is a result. -/
def Obligations.FailedOperationLeavesState : Prop :=
  ∀ (i : Instr) (s t : State) (e : ErrorCode), Answers (exec i s) t (.failed e) →
    t.tvalid = s.tvalid ∧ t.table = s.table ∧ (∀ k, t.ib.read k = s.ib.read k) ∧ t.request = none ∧
    (Response.failed e).err = e.code ∧ e.code ≠ 0#3 ∧ (Response.failed e).crc = 0#32 ∧
    (Response.failed e).addr = 0#32 ∧ (Response.failed e).len = 0#16 ∧ (Response.failed e).olen = 0#32 ∧
    ∀ k, t.resultByte k = none

/-- R62: the fields that are not valid for an operation read as zero when it succeeds. -/
def Obligations.UnusedResponseFieldsAreZero : Prop :=
  ∀ (s t : State) (a m : Word) (q : Result),
    (Answers (exec .buildTable s) t (.done q) → q.crc = 0#32 ∧ q.addr = 0#32 ∧ q.len = 0#16 ∧ q.olen = 0#32) ∧
    (Answers (exec (.checksum m) s) t (.done q) → q.addr = 0#32 ∧ q.len = 0#16 ∧ q.olen = 0#32) ∧
    (Answers (exec (.encode a m) s) t (.done q) → q.addr = 0#32 ∧ q.len = 0#16)

/-- R63: the numbers of the seven errors, success reads as 0, no code is reserved, and which operation raises which
error. -/
def Obligations.ErrorCodesAndTheirOperations : Prop :=
  (ErrorCode.invalidStart.code = 1#3 ∧ ErrorCode.invalidTerminator.code = 2#3 ∧ ErrorCode.truncated.code = 3#3 ∧
    ErrorCode.checksumMismatch.code = 4#3 ∧ ErrorCode.malformedField.code = 5#3 ∧
    ErrorCode.payloadTooLarge.code = 6#3 ∧ ErrorCode.notInitialized.code = 7#3) ∧
  (∀ q : Result, (Response.done q).err = 0#3) ∧
  (∀ c : BitVec 3, c = 0#3 ∨ ∃ e : ErrorCode, e.code = c) ∧
  ∀ (s t : State) (a d : Word) (e : ErrorCode),
    ¬ Answers (exec .buildTable s) t (.failed e) ∧
    (Answers (exec (.checksum d) s) t (.failed e) → e = .notInitialized) ∧
    (Answers (exec (.encode a d) s) t (.failed e) → e = .payloadTooLarge ∨ e = .notInitialized) ∧
    (Answers (exec (.decode d) s) t (.failed e) → e ≠ .payloadTooLarge)

/-- The frame of BUILD_TABLE and CHECKSUM (R93, R97): neither IB nor the reset input changes; CHECKSUM changes neither
TVALID nor TABLE. The request is consumed and the response written. OB is not written and `RSP.OLEN` is 0, so by R43 no
byte of it keeps a meaning: none is stated (U6, log entry 5). -/
def Obligations.EngineOperationsFrame : Prop :=
  ∀ (s t : State) (m : Word),
    (exec .buildTable s = .next t →
      (∀ k, t.ib.read k = s.ib.read k) ∧ (∀ k, t.ob.read k = none) ∧
      t.resetIn = s.resetIn ∧ t.request = none) ∧
    (exec (.checksum m) s = .next t →
      (∀ k, t.ib.read k = s.ib.read k) ∧ (∀ k, t.ob.read k = none) ∧
      t.resetIn = s.resetIn ∧ t.request = none ∧ t.tvalid = s.tvalid ∧ t.table = s.table)

/-- The frame of ENCODE (R110, R111, R115): TVALID, TABLE, IB and the reset input are unchanged. On success the bytes
stored are the `23 + m` of the frame from offset 0 on. The spec lets no byte of OB at or beyond `RSP.OLEN` keep a
meaning, after a failure none at all (R43, U6): none is stated there (log entry 5). -/
def Obligations.EncodeFrame : Prop :=
  ∀ (s t : State) (a m : Word) (r : Response), Answers (exec (.encode a m) s) t r →
    t.tvalid = s.tvalid ∧ t.table = s.table ∧ (∀ k, t.ib.read k = s.ib.read k) ∧ t.resetIn = s.resetIn ∧
    t.request = none ∧ (∀ e, r = .failed e → ∀ k, t.ob.read k = none) ∧
    (∀ q, r = .done q → ∀ k, (t.ob.read k).isSome = true ↔ k < 23 + m.toNat)

/-- The frame of DECODE (R125, R140): TVALID, TABLE, IB and the reset input are unchanged. On success the bytes stored
are the payload's from offset 0 on. The spec lets no byte of OB at or beyond `RSP.OLEN` keep a meaning, after a failure
none at all (R43, U6): none is stated there (log entry 5). -/
def Obligations.DecodeFrame : Prop :=
  ∀ (s t : State) (n : Word) (r : Response), Answers (exec (.decode n) s) t r →
    t.tvalid = s.tvalid ∧ t.table = s.table ∧ (∀ k, t.ib.read k = s.ib.read k) ∧ t.resetIn = s.resetIn ∧
    t.request = none ∧ (∀ e, r = .failed e → ∀ k, t.ob.read k = none) ∧
    (∀ q, r = .done q → ∀ k, (t.ob.read k).isSome = true ↔ k < q.olen.toNat)

/-- While a request is pending the host port refuses a second one and a change of IB, each by name, and gives no byte of
OB as a result. R197 and R198 only lay these duties on the host, and U7 and U8 leave open what the block does where it
breaks them: the refusals and the hidden OB are the model's choice (log entry 11, after D16 and D17). -/
def Obligations.BusyPortRefusesHost : Prop :=
  ∀ (s : State) (q r : Request), s.request = some q →
    s.presentRequest r = .refused .requestWhileBusy ∧
    (∀ (p : Config.Params) (k : Nat) (b : Byte), s.supplyInput p k b = .refused .bufferInUse) ∧
    ∀ k, s.resultByte k = none

/-- R43, R200: what the host reads of OB is stated only below RSP.OLEN, and nothing before the first response. -/
def Obligations.OutputIsResultOnlyBelowLength : Prop :=
  ∀ (s : State) (k : Nat), (s.response = none → s.resultByte k = none) ∧
    ∀ r, s.response = some r → r.olen.toNat ≤ k → s.resultByte k = none

/-- R43, R177: from every state of the invariant a step that serves a request ends in one response, with the block idle
and not reset, and after it exactly the bytes of `OB` below `RSP.OLEN` are stated (log entry 5). -/
def Obligations.RequestEndsInOneResponse : Prop :=
  ∀ (s : State) (r : Request) (i : Instr), s.Inv → s.resetIn = false → s.request = some r →
    decodeRequest Config.params r = .ok i →
    ∃ t p, step s = .next t ∧ t.response = some p ∧ t.request = none ∧ t.resetIn = false ∧
      ∀ k, (t.ob.read k).isSome = true ↔ k < p.olen.toNat
end

