-- ==== Sys2Proof/Laws/Crc.lean ====
section
/-! SUPPORT. Laws of the CRC-32 engine. -/

namespace Sys2Proof.Machine

/-- Reading a table that lists the values of `f` in order gives the value of `f`. -/
theorem tableRead_range (f : Byte → Word) (h) (i : Byte) :
    tableRead ⟨⟨(List.range 256).map fun n => f (BitVec.ofNat 8 n)⟩, h⟩ i = f i := by
  simp [tableRead, Vector.get, show BitVec.ofNat 8 i.toNat = i by simp]

/-- The built table read by index is the entry function (R92). -/
@[simp] theorem tableRead_built (i : Byte) : tableRead builtTable i = tableEntry i := tableRead_range tableEntry _ i

/-- The checksum with the built table. -/
theorem crc32With_built (s : List Byte) : crc32With builtTable s = crc32 s := rfl

/-- The per-byte update with the built table (R95). -/
theorem crcStep_built (acc : Word) (c : Byte) :
    crcStep builtTable acc c = (acc >>> 8) ^^^ tableEntry (crcIndex acc c) := by
  simp [crcStep]

/-- The accumulator runs through a concatenation left to right (R96). -/
theorem crcFold_append (v : Table) (acc : Word) (s t : List Byte) :
    (s ++ t).foldl (crcStep v) acc = t.foldl (crcStep v) (s.foldl (crcStep v) acc) :=
  List.foldl_append

/-- Equal checksums are equal accumulators: the final complement loses nothing. -/
theorem crc32With_inj {v : Table} {s t : List Byte} :
    crc32With v s = crc32With v t ↔ s.foldl (crcStep v) crcInit = t.foldl (crcStep v) crcInit := by
  constructor
  · intro h
    have := congrArg (fun x : Word => ~~~x) h
    simpa [crc32With] using this
  · intro h
    simp [crc32With, h]

end Sys2Proof.Machine
end

