-- ==== Sys2Proof/Laws/Memory.lean ====
section
/-! SUPPORT. The laws of a buffer: read after write, and that every operation keeps the canonical form. -/

namespace Sys2Proof.Machine

@[simp] theorem read_blank (a : Nat) : Memory.read Memory.blank a = none := rfl

@[simp] theorem wf_blank : Memory.wf Memory.blank := List.Pairwise.nil

/-- A written byte reads back. -/
theorem read_write_same (m : Memory) (a : Nat) (b : Byte) : (m.write a b).read a = some b := by
  induction m with
  | nil => simp [Memory.write, Memory.read]
  | cons c rest ih =>
    obtain ⟨k, c⟩ := c
    simp only [Memory.write]
    split
    · simp [Memory.read]
    · split
      · simp [Memory.read]
      · have : k ≠ a := by omega
        simp [Memory.read, this, ih]

/-- A write leaves every other offset alone. -/
theorem read_write_other {m : Memory} {a k : Nat} (b : Byte) (h : k ≠ a) : (m.write a b).read k = m.read k := by
  induction m with
  | nil => simp [Memory.write, Memory.read, h.symm]
  | cons c rest ih =>
    obtain ⟨j, c⟩ := c
    simp only [Memory.write]
    split
    · simp [Memory.read, h.symm]
    · split
      · subst_vars
        simp [Memory.read, h.symm]
      · simp [Memory.read, ih]

/-- The offsets a write lists are those listed before and its own. -/
theorem mem_write {m : Memory} {a : Nat} {b : Byte} {x : Host.Cell} (h : x ∈ m.write a b) : x = (a, b) ∨ x ∈ m := by
  induction m with
  | nil => simpa [Memory.write] using h
  | cons c rest ih =>
    obtain ⟨k, c⟩ := c
    simp only [Memory.write] at h
    split at h
    · simpa using h
    · split at h
      · simp only [List.mem_cons] at h ⊢
        tauto
      · simp only [List.mem_cons] at h ⊢
        rcases h with h | h
        · exact .inr (.inl h)
        · rcases ih h with h | h
          · exact .inl h
          · exact .inr (.inr h)

/-- A write keeps the canonical form. -/
theorem wf_write {m : Memory} (a : Nat) (b : Byte) (h : Memory.wf m) : Memory.wf (m.write a b) := by
  induction m with
  | nil => simp [Memory.write]
  | cons c rest ih =>
    obtain ⟨k, c⟩ := c
    obtain ⟨hk, hrest⟩ := List.pairwise_cons.mp h
    simp only [Memory.write]
    split
    · rename_i hlt
      refine List.pairwise_cons.mpr ⟨fun x hx => ?_, h⟩
      rcases List.mem_cons.mp hx with rfl | hx
      · exact hlt
      · exact Nat.lt_trans hlt (hk x hx)
    · split
      · rename_i heq
        subst heq
        exact List.pairwise_cons.mpr ⟨hk, hrest⟩
      · refine List.pairwise_cons.mpr ⟨fun x hx => ?_, ih hrest⟩
        rcases mem_write hx with rfl | hx
        · simp only
          omega
        · exact hk x hx

/-- What `ofBytes` lists at each offset. -/
theorem read_ofBytes (a : Nat) (bs : List Byte) (k : Nat) :
    (Memory.ofBytes a bs).read k = if a ≤ k then bs[k - a]? else none := by
  induction bs generalizing a with
  | nil => simp [Memory.ofBytes]
  | cons b bs ih =>
    simp only [Memory.ofBytes, Memory.read, ih]
    by_cases h : a = k
    · simp [h]
    · by_cases h2 : a ≤ k
      · have h3 : k - a = (k - (a + 1)) + 1 := by omega
        have h4 : a + 1 ≤ k := by omega
        rw [if_neg h, if_pos h2, if_pos h4, h3, List.getElem?_cons_succ]
      · have h4 : ¬ a + 1 ≤ k := by omega
        rw [if_neg h, if_neg h2, if_neg h4]

/-- Bytes stored from offset 0 on. -/
@[simp] theorem read_ofBytes_zero (bs : List Byte) (k : Nat) : (Memory.ofBytes 0 bs).read k = bs[k]? := by
  simp [read_ofBytes]

/-- Every offset `ofBytes` lists is at or above its first. -/
theorem le_of_mem_ofBytes {a : Nat} {bs : List Byte} {x : Host.Cell} (h : x ∈ Memory.ofBytes a bs) : a ≤ x.1 := by
  induction bs generalizing a with
  | nil => simp [Memory.ofBytes, Memory.blank] at h
  | cons b bs ih =>
    rcases List.mem_cons.mp h with rfl | h
    · exact Nat.le_refl _
    · exact Nat.le_of_succ_le (ih h)

/-- `ofBytes` gives the canonical form. -/
theorem wf_ofBytes (a : Nat) (bs : List Byte) : Memory.wf (Memory.ofBytes a bs) := by
  induction bs generalizing a with
  | nil => exact wf_blank
  | cons b bs ih => exact List.pairwise_cons.mpr ⟨fun x hx => le_of_mem_ofBytes hx, ih (a + 1)⟩

/-- Every offset `ofBytes` lists is among those of its bytes. -/
theorem lt_of_mem_ofBytes {a : Nat} {bs : List Byte} {x : Host.Cell} (h : x ∈ Memory.ofBytes a bs) :
    x.1 < a + bs.length := by
  induction bs generalizing a with
  | nil => simp [Memory.ofBytes, Memory.blank] at h
  | cons b bs ih =>
    rw [List.length_cons]
    rcases List.mem_cons.mp h with rfl | h
    · exact Nat.lt_add_of_pos_right (Nat.succ_pos _)
    · have := ih h
      omega

/-- Dropping the bytes from `n` on leaves the ones below `n`. -/
@[simp] theorem read_below (n : Nat) (m : Memory) (k : Nat) :
    (m.below n).read k = if k < n then m.read k else none := by
  induction m with
  | nil => simp [Memory.below, Memory.read]
  | cons c rest ih =>
    obtain ⟨j, b⟩ := c
    unfold Memory.below at ih ⊢
    by_cases hj : j < n
    · by_cases hk : j = k <;> simp_all [Memory.read]
    · have hjk : k < n → j ≠ k := by omega
      by_cases hk : k < n <;> simp_all [Memory.read]

/-- Dropping bytes keeps the canonical form. -/
theorem wf_below {m : Memory} (n : Nat) (h : Memory.wf m) : Memory.wf (m.below n) := h.filter _

@[simp] theorem below_zero (m : Memory) : m.below 0 = Memory.blank := by
  simp [Memory.below, Memory.blank]

/-- Bytes that lie below `n` are all kept. -/
theorem below_ofBytes {n : Nat} {bs : List Byte} (h : bs.length ≤ n) :
    (Memory.ofBytes 0 bs).below n = Memory.ofBytes 0 bs :=
  List.filter_eq_self.mpr fun x hx => by
    have := lt_of_mem_ofBytes hx
    simp only [decide_eq_true_eq]
    omega

end Sys2Proof.Machine
end

