-- ==== Sys2Proof/Laws/Operands.lean ====
section
/-! SUPPORT. Laws of the hexadecimal fields and of the parts of a frame. -/

namespace Sys2Proof.Machine

@[simp] theorem hexN_length (v N : Nat) : (hexN v N).length = N := by simp [hexN]

@[simp] theorem frameBody_length (a : Word) (P : List Byte) : (frameBody a P).length = 13 + P.length := by
  simp [frameBody]
  omega

@[simp] theorem frameWith_length (a : Word) (P : List Byte) (c : Word) :
    (frameWith a P c).length = 23 + P.length := by
  simp [frameWith]
  omega

/-- Reading one more digit: the shift and the OR of R72 are multiplication and addition. -/
theorem shift_or_digit {v d : Nat} (h : d < 16) : (v <<< 4) ||| d = v * 16 + d := by
  have := Nat.shiftLeft_add_eq_or_of_lt (show d < 2 ^ 4 by omega) v
  rw [← this, Nat.shiftLeft_eq]

/-- A digit's value is below 16 (R70). -/
theorem hexval_lt {upper : Bool} {c : Byte} {d : Nat} (h : hexval upper c = some d) : d < 16 := by
  unfold hexval at h
  split at h
  · simp only [Option.some.injEq] at h
    omega
  · split at h
    · simp only [Option.some.injEq] at h
      omega
    · split at h
      · simp only [Option.some.injEq] at h
        omega
      · cases h

/-- Without upper case fewer bytes are digits, with the same values (R70). -/
theorem hexval_of_strict {upper : Bool} {c : Byte} {d : Nat} (h : hexval false c = some d) :
    hexval upper c = some d := by
  unfold hexval at h ⊢
  split at h
  · rename_i h1
    rw [if_pos h1]
    exact h
  · rename_i h1
    split at h
    · rename_i h2
      rw [if_neg h1, if_pos h2]
      exact h
    · simp at h

/-- The loop of R72 over a concatenation. -/
theorem parseDigits_append (upper : Bool) (v : Nat) (s t : List Byte) :
    parseDigits upper v (s ++ t) = (parseDigits upper v s).bind fun w => parseDigits upper w t := by
  induction s generalizing v with
  | nil => rfl
  | cons c cs ih =>
    simp only [List.cons_append, parseDigits]
    cases hexval upper c with
    | none => rfl
    | some d => exact ih _

/-- A field has no value exactly where one of its bytes is no digit. -/
theorem parseDigits_none (upper : Bool) (v : Nat) (s : List Byte) :
    parseDigits upper v s = none ↔ ∃ b ∈ s, hexval upper b = none := by
  induction s generalizing v with
  | nil => simp [parseDigits]
  | cons c cs ih =>
    simp only [parseDigits]
    cases h : hexval upper c with
    | none => simp [h]
    | some d => simp [ih, h]

/-- The loop of R72 stays below the bound its digits give. -/
theorem parseDigits_lt {upper : Bool} {v w : Nat} {s : List Byte} (h : parseDigits upper v s = some w) :
    w < (v + 1) * 16 ^ s.length := by
  induction s generalizing v with
  | nil =>
    simp only [parseDigits, Option.some.injEq] at h
    simp [h]
  | cons c cs ih =>
    simp only [parseDigits] at h
    cases hc : hexval upper c with
    | none => simp [hc] at h
    | some d =>
      simp only [hc] at h
      have hd := hexval_lt hc
      have hw := ih h
      rw [shift_or_digit hd] at hw
      rw [List.length_cons, Nat.pow_succ, Nat.mul_comm (16 ^ _) 16, ← Nat.mul_assoc]
      exact Nat.lt_of_lt_of_le hw (Nat.mul_le_mul_right _ (by omega))

/-- The digits of a value are those of its sixteenth and then its last one (R71). -/
theorem hexN_succ (v N : Nat) : hexN v (N + 1) = hexN (v / 16) N ++ [hexdig (v % 16)] := by
  unfold hexN
  rw [List.range_succ, List.map_append]
  congr 1
  · refine List.map_congr_left fun k hk => ?_
    have hk : k < N := List.mem_range.mp hk
    congr 2
    rw [show 4 * (N + 1 - 1 - k) = 4 + 4 * (N - 1 - k) by omega, Nat.shiftRight_add,
      Nat.shiftRight_eq_div_pow v 4]
  · simp [Nat.and_two_pow_sub_one_eq_mod v 4]

/-- The bytes of a slice by offset. -/
theorem mem_slice_iff {F : List Byte} {off N : Nat} {b : Byte} :
    b ∈ (F.drop off).take N ↔ ∃ k < N, F[off + k]? = some b := by
  rw [List.mem_iff_getElem?]
  constructor
  · rintro ⟨k, hk⟩
    rw [List.getElem?_take, List.getElem?_drop] at hk
    split at hk
    · exact ⟨k, ‹_›, hk⟩
    · cases hk
  · rintro ⟨k, hk, hb⟩
    exact ⟨k, by rw [List.getElem?_take, List.getElem?_drop, if_pos hk, hb]⟩

/-- A field that has a value lies inside the sequence (R72). -/
theorem parseHex_inside {upper : Bool} {s : List Byte} {off N v : Nat} (h : parseHex upper s off N = some v) :
    off + N ≤ s.length := by
  unfold parseHex at h
  split at h
  · assumption
  · cases h

/-- The value of a field is below `16 ^ N` (R72). -/
theorem parseHex_lt {upper : Bool} {s : List Byte} {off N v : Nat} (h : parseHex upper s off N = some v) :
    v < 16 ^ N := by
  have hin := parseHex_inside h
  unfold parseHex at h
  rw [if_pos hin] at h
  have := parseDigits_lt h
  simpa [show min N (s.length - off) = N by omega] using this

end Sys2Proof.Machine
end

