-- ==== Sys2Proof/Laws/State.lean ====
section
/-! SUPPORT. One lemma per field per state operation, so that no proof unfolds a record update. -/

namespace Sys2Proof.Machine

section
variable (s : State) (r : Response) (e : ErrorCode) (q : Result) (bs : List Byte) (w : Nat)

@[simp] theorem buildTable_tvalid : (s.buildTable).tvalid = true := rfl
@[simp] theorem buildTable_table : (s.buildTable).table = some builtTable := rfl
@[simp] theorem buildTable_request : (s.buildTable).request = s.request := rfl
@[simp] theorem buildTable_resetIn : (s.buildTable).resetIn = s.resetIn := rfl
@[simp] theorem buildTable_ib : (s.buildTable).ib = s.ib := rfl
@[simp] theorem buildTable_ob : (s.buildTable).ob = s.ob := rfl
@[simp] theorem buildTable_response : (s.buildTable).response = s.response := rfl

@[simp] theorem storeOutput_tvalid : (s.storeOutput bs).tvalid = s.tvalid := rfl
@[simp] theorem storeOutput_table : (s.storeOutput bs).table = s.table := rfl
@[simp] theorem storeOutput_request : (s.storeOutput bs).request = s.request := rfl
@[simp] theorem storeOutput_resetIn : (s.storeOutput bs).resetIn = s.resetIn := rfl
@[simp] theorem storeOutput_ib : (s.storeOutput bs).ib = s.ib := rfl
@[simp] theorem storeOutput_ob : (s.storeOutput bs).ob = Memory.ofBytes 0 bs := rfl
@[simp] theorem storeOutput_response : (s.storeOutput bs).response = s.response := rfl

@[simp] theorem respond_tvalid : (s.respond r).tvalid = s.tvalid := rfl
@[simp] theorem respond_table : (s.respond r).table = s.table := rfl
@[simp] theorem respond_request : (s.respond r).request = none := rfl
@[simp] theorem respond_resetIn : (s.respond r).resetIn = s.resetIn := rfl
@[simp] theorem respond_ib : (s.respond r).ib = s.ib := rfl
@[simp] theorem respond_ob : (s.respond r).ob = s.ob.below r.olen.toNat := rfl
@[simp] theorem respond_response : (s.respond r).response = some r := rfl

@[simp] theorem raise_tvalid : (s.raise e).tvalid = s.tvalid := rfl
@[simp] theorem raise_table : (s.raise e).table = s.table := rfl
@[simp] theorem raise_request : (s.raise e).request = none := rfl
@[simp] theorem raise_resetIn : (s.raise e).resetIn = s.resetIn := rfl
@[simp] theorem raise_ib : (s.raise e).ib = s.ib := rfl
@[simp] theorem raise_ob : (s.raise e).ob = Memory.blank := by
  simp [State.raise, State.respond, Response.olen, Memory.below, Memory.blank]
@[simp] theorem raise_response : (s.raise e).response = some (.failed e) := rfl

@[simp] theorem complete_tvalid : (s.complete q).tvalid = s.tvalid := rfl
@[simp] theorem complete_table : (s.complete q).table = s.table := rfl
@[simp] theorem complete_request : (s.complete q).request = none := rfl
@[simp] theorem complete_resetIn : (s.complete q).resetIn = s.resetIn := rfl
@[simp] theorem complete_ib : (s.complete q).ib = s.ib := rfl
@[simp] theorem complete_ob : (s.complete q).ob = s.ob.below q.olen.toNat := rfl
@[simp] theorem complete_response : (s.complete q).response = some (.done q) := rfl

@[simp] theorem assertReset_tvalid : (s.assertReset).tvalid = s.tvalid := rfl
@[simp] theorem assertReset_table : (s.assertReset).table = s.table := rfl
@[simp] theorem assertReset_request : (s.assertReset).request = s.request := rfl
@[simp] theorem assertReset_resetIn : (s.assertReset).resetIn = true := rfl
@[simp] theorem assertReset_ib : (s.assertReset).ib = s.ib := rfl
@[simp] theorem assertReset_ob : (s.assertReset).ob = s.ob := rfl
@[simp] theorem assertReset_response : (s.assertReset).response = s.response := rfl

@[simp] theorem placeWord_tvalid : (s.placeWord w).tvalid = s.tvalid := rfl
@[simp] theorem placeWord_table : (s.placeWord w).table = s.table := rfl
@[simp] theorem placeWord_request : (s.placeWord w).request = requestOfWord w := rfl
@[simp] theorem placeWord_resetIn : (s.placeWord w).resetIn = false := rfl
@[simp] theorem placeWord_ib : (s.placeWord w).ib = s.ib := rfl
@[simp] theorem placeWord_ob : (s.placeWord w).ob = s.ob := rfl
@[simp] theorem placeWord_response : (s.placeWord w).response = s.response := rfl

end

/-- Input bytes depend on `IB` only. -/
theorem inputByte_congr {s t : State} (h : s.ib = t.ib) (k : Nat) : s.inputByte k = t.inputByte k := by
  simp [State.inputByte, h]

/-- Input byte sequences depend on `IB` only. -/
theorem inputBytes_congr {s t : State} (h : s.ib = t.ib) (m : Nat) : s.inputBytes m = t.inputBytes m :=
  List.map_congr_left fun k _ => inputByte_congr h k

@[simp] theorem inputBytes_length (s : State) (m : Nat) : (s.inputBytes m).length = m := by
  simp [State.inputBytes]

@[simp] theorem inputBytes_getElem? (s : State) (m k : Nat) :
    (s.inputBytes m)[k]? = if k < m then some (s.inputByte k) else none := by
  by_cases h : k < m <;> simp [State.inputBytes, h]

/-- The output of the last operation is what its response counts. -/
theorem validOutput_of_response {s : State} {r : Response} (h : s.response = some r) :
    s.validOutput = r.olen.toNat := by
  simp [State.validOutput, h]

@[simp] theorem done_olen (q : Result) : (Response.done q).olen = q.olen := rfl

@[simp] theorem failed_olen (e : ErrorCode) : (Response.failed e).olen = 0#32 := rfl

end Sys2Proof.Machine
end

