-- ==== Sys2Proof/Laws/Ops.lean ====
section
/-! SUPPORT. What each shared operation and each meaning can do, said once: citers need not unfold them. -/

namespace Sys2Proof.Machine

/-- Asking for a built table gives it and changes nothing (R22). -/
theorem requestTable_built {s : State} (init : Config.TableInit) (h : s.Built) :
    s.requestTable init = .ready builtTable s := by
  simp [State.requestTable, h.1, h.2]

/-- Asking for a table that is not built, under the policy of this spec (R98). -/
theorem requestTable_notBuilt {s : State} (h : s.tvalid = false) :
    s.requestTable Config.params.tableInit = .notBuilt := by
  simp [State.requestTable, Config.params, h]

/-- A table handed out under the policy of this spec is the state's own, and the state is unchanged. -/
theorem requestTable_ready {s t : State} {v : Table} (h : s.requestTable Config.params.tableInit = .ready v t) :
    s.tvalid = true ∧ s.table = some v ∧ t = s := by
  unfold State.requestTable at h
  split at h
  · rename_i hv
    split at h
    · rename_i w hw
      simp only [TableAccess.ready.injEq] at h
      exact ⟨hv, by rw [hw, h.1], h.2.symm⟩
    · cases h
  · simp [Config.params] at h

/-- The table holds no value only where `TVALID = 1` without a table. -/
theorem requestTable_noValue {s : State} {init : Config.TableInit} (h : s.requestTable init = .noValue) :
    s.tvalid = true ∧ s.table = none := by
  unfold State.requestTable at h
  split at h
  · rename_i hv
    split at h
    · cases h
    · rename_i hw
      exact ⟨hv, hw⟩
  · cases init <;> cases h

/-- What is left when an operation fails (R30, R43, R175). -/
theorem raise_eq (s : State) (e : ErrorCode) :
    s.raise e = { s with request := none, ob := Memory.blank, response := some (.failed e) } := by
  simp [State.raise, State.respond, Response.olen]

/-- What is left when an operation without output succeeds (R43). -/
theorem complete_eq {s : State} {q : Result} (h : q.olen = 0) :
    s.complete q = { s with request := none, ob := Memory.blank, response := some (.done q) } := by
  simp [State.complete, State.respond, Response.olen, h]

/-- What is left when an operation with the output `bs` succeeds (R43). -/
theorem storeOutput_complete_eq {s : State} {bs : List Byte} {q : Result} (h : bs.length ≤ q.olen.toNat) :
    (s.storeOutput bs).complete q =
      { s with request := none, ob := Memory.ofBytes 0 bs, response := some (.done q) } := by
  simp [State.complete, State.respond, State.storeOutput, Response.olen, below_ofBytes h]

/-- Everything CHECKSUM can do (R97). -/
theorem execChecksum_cases (m : Word) (s : State) :
    (s.tvalid = false ∧ execChecksum m s = .next (s.raise .notInitialized)) ∨
    (s.tvalid = true ∧ s.table = none ∧ execChecksum m s = .fault .tableHoldsNoValue) ∨
    ∃ v, s.tvalid = true ∧ s.table = some v ∧ execChecksum m s =
      .next (s.complete { crc := crc32With v (s.inputBytes m.toNat), addr := 0, len := 0, olen := 0 }) := by
  cases hv : s.tvalid with
  | false => exact .inl ⟨rfl, by simp [execChecksum, checksumOp, requestTable_notBuilt hv]⟩
  | true =>
    cases ht : s.table with
    | none => exact .inr (.inl ⟨rfl, rfl, by simp [execChecksum, checksumOp, State.requestTable, hv, ht]⟩)
    | some v => exact .inr (.inr ⟨v, rfl, rfl, by simp [execChecksum, checksumOp, State.requestTable, hv, ht]⟩)

/-- Everything ENCODE can do (R110). -/
theorem execEncode_cases (a m : Word) (s : State) :
    (Config.maxPayload < m.toNat ∧ execEncode a m s = .next (s.raise .payloadTooLarge)) ∨
    (m.toNat ≤ Config.maxPayload ∧ s.tvalid = false ∧
      execEncode a m s = .next (s.raise .notInitialized)) ∨
    (m.toNat ≤ Config.maxPayload ∧ s.tvalid = true ∧ s.table = none ∧
      execEncode a m s = .fault .tableHoldsNoValue) ∨
    ∃ v c, m.toNat ≤ Config.maxPayload ∧ s.tvalid = true ∧ s.table = some v ∧
      c = crc32With v (frameBody a (s.inputBytes m.toNat)) ∧
      execEncode a m s = .next ((s.storeOutput (frameWith a (s.inputBytes m.toNat) c)).complete
        { crc := c, addr := 0, len := 0, olen := BitVec.ofNat 32 (Config.minFrame + m.toNat) }) := by
  by_cases hm : Config.maxPayload < m.toNat
  · exact .inl ⟨hm, by simp [execEncode, encodeOp, hm]⟩
  have hm' := Nat.le_of_not_lt hm
  refine .inr ?_
  cases hv : s.tvalid with
  | false => exact .inl ⟨hm', rfl, by simp [execEncode, encodeOp, hm, requestTable_notBuilt hv]⟩
  | true =>
    cases ht : s.table with
    | none =>
      exact .inr (.inl ⟨hm', rfl, rfl, by simp [execEncode, encodeOp, hm, State.requestTable, hv, ht]⟩)
    | some v =>
      exact .inr (.inr ⟨v, _, hm', rfl, rfl, rfl,
        by simp [execEncode, encodeOp, hm, State.requestTable, hv, ht]⟩)

/-- Everything DECODE can do (R125). -/
theorem execDecode_cases (n : Word) (s : State) :
    (∃ e, checkStructure true (s.inputBytes n.toNat) = .error e ∧ execDecode n s = .next (s.raise e)) ∨
    ∃ claimed, checkStructure true (s.inputBytes n.toNat) = .ok claimed ∧
      ((s.tvalid = false ∧ execDecode n s = .next (s.raise .notInitialized)) ∨
       (s.tvalid = true ∧ s.table = none ∧ execDecode n s = .fault .tableHoldsNoValue) ∨
       ∃ v, s.tvalid = true ∧ s.table = some v ∧
        ((crc32With v ((s.inputBytes n.toNat).take (crcOffset (s.inputBytes n.toNat))) ≠ claimed ∧
            execDecode n s = .next (s.raise .checksumMismatch)) ∨
         (crc32With v ((s.inputBytes n.toNat).take (crcOffset (s.inputBytes n.toNat))) = claimed ∧
          ((∃ e, extractFields true (s.inputBytes n.toNat) = .error e ∧ execDecode n s = .next (s.raise e)) ∨
           ∃ f, extractFields true (s.inputBytes n.toNat) = .ok f ∧
            execDecode n s = .next ((s.storeOutput f.payload).complete
              { crc := claimed, addr := f.addr, len := BitVec.ofNat 16 f.len,
                olen := BitVec.ofNat 32 f.len }))))) := by
  have hp : Config.params.upperHex = true := rfl
  cases hc : checkStructure true (s.inputBytes n.toNat) with
  | error e => exact .inl ⟨e, rfl, by simp [execDecode, decodeOp, hp, hc]⟩
  | ok claimed =>
    refine .inr ⟨claimed, rfl, ?_⟩
    cases hv : s.tvalid with
    | false => exact .inl ⟨rfl, by simp [execDecode, decodeOp, hp, hc, requestTable_notBuilt hv]⟩
    | true =>
      cases ht : s.table with
      | none =>
        exact .inr (.inl ⟨rfl, rfl, by simp [execDecode, decodeOp, hp, hc, State.requestTable, hv, ht]⟩)
      | some v =>
        refine .inr (.inr ⟨v, rfl, rfl, ?_⟩)
        by_cases hm : crc32With v ((s.inputBytes n.toNat).take (crcOffset (s.inputBytes n.toNat))) = claimed
        · refine .inr ⟨hm, ?_⟩
          cases hf : extractFields true (s.inputBytes n.toNat) with
          | error e =>
            exact .inl ⟨e, rfl, by simp [execDecode, decodeOp, hp, hc, State.requestTable, hv, ht, hm, hf]⟩
          | ok f =>
            exact .inr ⟨f, rfl, by simp [execDecode, decodeOp, hp, hc, State.requestTable, hv, ht, hm, hf]⟩
        · exact .inl ⟨hm, by simp [execDecode, decodeOp, hp, hc, State.requestTable, hv, ht, hm]⟩

/-- The parameters of this spec give exec. -/
theorem execUnder_params (i : Instr) (s : State) : execUnder Config.params i s = exec i s := by
  cases i <;> rfl

/-- Asking for the table in a state of the invariant gives the built one and leaves the block built, unless it is not
built and the policy does not build it now (R193). -/
theorem requestTable_cases {s : State} (init : Config.TableInit) (h : s.Inv) :
    (init ≠ .lazy ∧ s.tvalid = false ∧ s.requestTable init = .notBuilt) ∨
    ∃ t, s.requestTable init = .ready builtTable t ∧ t.Built ∧ t.ib = s.ib ∧ t.ob = s.ob := by
  rcases h.tableCoherent with hn | hb
  · cases init with
    | explicit => exact .inl ⟨nofun, hn.1, by simp [State.requestTable, hn.1]⟩
    | eager => exact .inl ⟨nofun, hn.1, by simp [State.requestTable, hn.1]⟩
    | lazy => exact .inr ⟨s.buildTable, by simp [State.requestTable, hn.1], ⟨rfl, rfl⟩, rfl, rfl⟩
  · exact .inr ⟨s, requestTable_built init hb, hb, rfl, rfl⟩

/-- Everything a step can do. -/
theorem step_cases (s : State) :
    (s.resetIn = true ∧ step s = .next (s.takeReset .explicit)) ∨
    (s.resetIn = false ∧ s.request = none ∧ step s = .next s) ∨
    (∃ r, s.resetIn = false ∧ s.request = some r ∧
      decodeRequest Config.params r = .error .lengthBeyondCapacity ∧ step s = .refused .lengthBeyondCapacity) ∨
    ∃ r i, s.resetIn = false ∧ s.request = some r ∧ decodeRequest Config.params r = .ok i ∧ step s = exec i s := by
  cases hr : s.resetIn with
  | true => exact .inl ⟨rfl, by simp [step, hr, Config.params]⟩
  | false =>
    refine .inr ?_
    cases hq : s.request with
    | none => exact .inl ⟨rfl, rfl, by simp [step, hr, hq, stepIdle]⟩
    | some r =>
      refine .inr ?_
      cases hd : decodeRequest Config.params r with
      | error e =>
        cases e
        exact .inl ⟨r, rfl, rfl, hd, by simp [step, hr, hq, hd, refuseRequest]⟩
      | ok i => exact .inr ⟨r, i, rfl, rfl, hd, by simp [step, hr, hq, hd]⟩

/-- On a sequence long enough with marker and terminator the structural checks come down to the checksum field (R126
to R129). -/
theorem checkStructure_framed {upper : Bool} {F : List Byte} (h : Framed F) :
    checkStructure upper F =
      match parseHex upper F (crcOffset F) 8 with
      | none => .error .malformedField
      | some c => .ok (BitVec.ofNat 32 c) := by
  have hl : ¬ F.length < Config.minFrame := Nat.not_lt.mpr h.long
  have h2 : ¬ F.length < 2 := fun hc => hl (Nat.lt_trans hc (by decide))
  unfold checkStructure
  cases parseHex upper F (crcOffset F) 8 <;>
    simp only [if_neg hl, h.start, h.beforeLast, h.last, h2, ne_eq, not_true_eq_false, or_self, if_false]

/-- What passing the structural checks says (R126 to R129). -/
theorem checkStructure_ok {upper : Bool} {F : List Byte} {c : Word} (h : checkStructure upper F = .ok c) :
    Framed F ∧ parseHex upper F (crcOffset F) 8 = some c.toNat := by
  unfold checkStructure at h
  split at h
  · cases h
  rename_i h1
  split at h
  · cases h
  rename_i h2
  split at h
  · cases h
  rename_i h3
  simp only [not_or, not_not] at h1 h2
  split at h
  · cases h
  rename_i c' hc
  cases h
  have hlt := parseHex_lt hc
  exact ⟨⟨Nat.le_of_not_lt h3, h1, h2.2.1, h2.2.2⟩, by
    rw [hc, BitVec.toNat_ofNat, Nat.mod_eq_of_lt (by simpa using hlt)]⟩

/-- The errors the structural checks raise (R126 to R129). -/
theorem checkStructure_error {upper : Bool} {F : List Byte} {e : ErrorCode}
    (h : checkStructure upper F = .error e) :
    e = .invalidStart ∨ e = .invalidTerminator ∨ e = .truncated ∨ e = .malformedField := by
  unfold checkStructure at h
  split at h
  · cases h
    simp
  split at h
  · cases h
    simp
  split at h
  · cases h
    simp
  split at h <;> cases h
  simp

/-- The errors step 5 raises (R133 to R136). -/
theorem extractFields_error {upper : Bool} {F : List Byte} {e : ErrorCode}
    (h : extractFields upper F = .error e) : e = .truncated ∨ e = .malformedField := by
  unfold extractFields at h
  split at h
  · cases h
    simp
  split at h
  · cases h
    simp
  split at h <;> cases h
  simp

/-- An accepted length agrees with the frame, and the payload has that many bytes (R136, R137). -/
theorem extractFields_ok {upper : Bool} {F : List Byte} {f : Fields} (h : extractFields upper F = .ok f) :
    ∃ a, parseHex upper F 1 8 = some a ∧ f.addr = BitVec.ofNat 32 a ∧ parseHex upper F 9 4 = some f.len ∧
      13 + f.len = crcOffset F ∧ f.payload = (F.drop 13).take f.len := by
  unfold extractFields at h
  split at h
  · cases h
  · rename_i a ha
    split at h
    · cases h
    · rename_i L hL
      split at h
      · cases h
      · rename_i hagree
        cases h
        exact ⟨a, ha, rfl, hL, by simpa using hagree, rfl⟩

end Sys2Proof.Machine
end

