-- ==== Sys2Proof/Laws/PerInstr.lean ====
section
/-! SUPPORT. The family LengthField, one lemma per operation: an operation can be presented exactly where the length
field of its request fits the buffer, and BUILD_TABLE, which reads no length, always (30_encoding.md R77 (e)). -/

namespace Sys2Proof.Laws.LengthField

/-- Well-formedness of `i` said through the request that encodes it. -/
def Statement (i : Instr) : Prop :=
  ∀ p, i.wf p = (decide ((encodeRequest i).op = 0b00#2) || fitsBuffer p (encodeRequest i).dlen)

theorem buildTable : Statement .buildTable := fun _ => rfl

theorem checksum (dlen : Word) : Statement (.checksum dlen) := fun _ => rfl

theorem encode (addr dlen : Word) : Statement (.encode addr dlen) := fun _ => rfl

theorem decode (dlen : Word) : Statement (.decode dlen) := fun _ => rfl

end Sys2Proof.Laws.LengthField
end

