-- ==== Sys2Proof/Laws/Requests.lean ====
section
/-! SUPPORT. Laws of requests: what fits the buffer, the four codes, and everything the decoder can answer. -/

namespace Sys2Proof

/-- A length fits exactly where it is at most `P_BUF_BYTES`. -/
theorem fitsBuffer_iff (p : Config.Params) (d : Word) : fitsBuffer p d = true ↔ d.toNat ≤ p.bufBytes := by
  rw [fitsBuffer, Bool.or_eq_true, decide_eq_true_iff, decide_eq_true_iff]
  exact ⟨fun h => h.elim (fun h => Nat.le_trans h (Nat.le_add_right _ _)) id, .inr⟩

/-- The code space is full (R60). -/
theorem opCode_cases : ∀ c : BitVec 2, c = 0b00#2 ∨ c = 0b01#2 ∨ c = 0b10#2 ∨ c = 0b11#2 := by decide

/-- Everything the decoder can answer (R60, R77). -/
theorem decodeRequest_cases (p : Config.Params) (r : Request) :
    (r.op = 0b00#2 ∧ decodeRequest p r = .ok .buildTable) ∨
    (r.op ≠ 0b00#2 ∧ p.bufBytes < r.dlen.toNat ∧ decodeRequest p r = .error .lengthBeyondCapacity) ∨
    (r.op = 0b01#2 ∧ r.dlen.toNat ≤ p.bufBytes ∧ decodeRequest p r = .ok (.checksum r.dlen)) ∨
    (r.op = 0b10#2 ∧ r.dlen.toNat ≤ p.bufBytes ∧ decodeRequest p r = .ok (.encode r.addr r.dlen)) ∨
    (r.op = 0b11#2 ∧ r.dlen.toNat ≤ p.bufBytes ∧ decodeRequest p r = .ok (.decode r.dlen)) := by
  have hf := fitsBuffer_iff p r.dlen
  by_cases h : r.dlen.toNat ≤ p.bufBytes
  · have hfit := hf.mpr h
    rcases opCode_cases r.op with ho | ho | ho | ho <;> simp [decodeRequest, withLength, ho, hfit, h]
  · have hfit : fitsBuffer p r.dlen = false := by simpa using mt hf.mp h
    have hlt : p.bufBytes < r.dlen.toNat := Nat.lt_of_not_le h
    rcases opCode_cases r.op with ho | ho | ho | ho <;> simp [decodeRequest, withLength, ho, hfit, hlt]

end Sys2Proof
end

