-- ==== Sys2Proof/Tests/Slice0.lean ====
section
/-! SUPPORT. Tests. Expected values come from spec/95_test_vectors.md (the vector is named at each test) or from the
encoding tables of spec/30_encoding.md; each witness shows that the hypotheses of one statement can be met together. -/

namespace Sys2Proof.Tests

-- One after the other: tests checked at the same time would each hold a thread while they wait for the kernel.
set_option Elab.async false

open Sys2Proof Sys2Proof.Machine

/-! ### Helpers -/

/-- A built block, idle, with the given input bytes. -/
def built (bs : List Byte) : State := { State.reset.buildTable with ib := Memory.ofBytes 0 bs }

/-- A block whose table is not built, idle, with the given input bytes. -/
def unbuilt (bs : List Byte) : State := { State.reset with ib := Memory.ofBytes 0 bs }

/-- The state an outcome goes to; the reset state where it goes to none. -/
def after : Host.Outcome State Fault Refusal → State
  | .next t => t
  | .fault _ => State.reset
  | .refused _ => State.reset

/-- An outcome whose state holds a response is that state: the reset state holds none. -/
theorem answers_after {o : Host.Outcome State Fault Refusal} {r : Response} (h : (after o).response = some r) :
    Answers o (after o) r := by
  cases o with
  | next t => exact ⟨rfl, h⟩
  | fault f => cases h
  | refused f => cases h

/-- The bytes of a text whose characters are ASCII (R68). -/
def ascii (t : String) : List Byte := t.toList.map fun c => BitVec.ofNat 8 c.toNat

/-- A frame with the given body and checksum digits. -/
def frameText (t : String) : List Byte := ascii t ++ [0x0D#8, 0x0A#8]

/-- The smallest buffers allowed (R9). -/
def smallest : Config.Params := { tableInit := .explicit, upperHex := true, bufExtra := 0 }

theorem built_inv (bs : List Byte) : (built bs).Inv :=
  ⟨.inr ⟨rfl, rfl⟩, wf_ofBytes 0 bs, wf_blank, fun r hr => by cases hr⟩

theorem built_built (bs : List Byte) : (built bs).Built := ⟨rfl, rfl⟩

/-! ### Well-formedness -/

theorem test_wf_refuses_long_checksum : Instr.wf smallest (.checksum 65559#32) = false := by decide

theorem test_wf_refuses_long_encode : Instr.wf smallest (.encode 0#32 65559#32) = false := by decide

theorem test_wf_refuses_long_decode : Instr.wf smallest (.decode 65559#32) = false := by decide

/-- 65558 bytes, the largest frame, fit every implementation (R6, R9). -/
theorem test_wf_accepts_longest_frame : Instr.wf Config.params (.decode 65558#32) = true := by decide

/-- R77 (e): the decoder turns the length away by name. -/
theorem test_decode_rejects_long :
    decodeRequest smallest { op := 0b11#2, addr := 0#32, dlen := 65559#32 } = .error .lengthBeyondCapacity := by decide

/-! ### Decoding: the codes of R60 written out -/

theorem test_word_buildTable : decodeTableWord 8 0b00000000 = some .buildTable := by decide

theorem test_word_checksum : decodeTableWord 8 0b00000001 = some (.checksum 0#32) := by decide

theorem test_word_encode : decodeTableWord 8 0b00000010 = some (.encode 0#32 0#32) := by decide

theorem test_word_decode : decodeTableWord 8 0b00000011 = some (.decode 0#32) := by decide

/-- The field has two bits; a third one belongs to no code. -/
theorem test_word_beyond_field : decodeTableWord 8 0b00000100 = none := by decide

/-- R61: the address of ENCODE is its own field. -/
theorem test_request_encode :
    decodeRequest Config.params { op := 0b10#2, addr := 0xDEADBEEF#32, dlen := 25#32 } =
      .ok (.encode 0xDEADBEEF#32 25#32) := by decide

/-! ### Hexadecimal fields: section 3.1 -/

/-- H1 and H7. -/
theorem test_hexN : hexN 0xDEADBEEF 8 = ascii "deadbeef" ∧ hexN 0x0A 4 = ascii "000a" := by decide

/-- H9, H10. -/
theorem test_parseHex_case : parseHex true (ascii "DeadBeef") 0 8 = some 3735928559 ∧
    parseHex false (ascii "DeadBeef") 0 8 = none := by decide

/-- H13 to H16. -/
theorem test_parseHex_invalid : parseHex true (ascii "00 b") 0 4 = none ∧ parseHex true (ascii "+123") 0 4 = none ∧
    parseHex true (ascii "0x1b") 0 4 = none ∧ parseHex true (ascii "001g") 0 4 = none := by decide

/-! ### One step of each operation -/

/-- K21, and entry 128 of section 2.1. -/
theorem test_buildTable :
    (after (step (State.reset.withFetchWord 8 0))).tvalid = true ∧
    (after (step (State.reset.withFetchWord 8 0))).table.map (fun v => tableRead v 128#8) = some 0xEDB88320#32 := by
  decide +kernel

/-- R43: BUILD_TABLE after an ENCODE leaves no byte of the frame stated. -/
theorem test_buildTable_states_no_output :
    (after (exec .buildTable (after (exec (.encode 1#32 0#32) (built []))))).ob = [] := by
  decide +kernel

/-- K4, with the address of K23, which is ignored. -/
theorem test_checksum_a :
    (after (step { built (ascii "a") with
      request := some { op := 0b01#2, addr := 0x12345678#32, dlen := 1#32 } })).response =
      some (.done { crc := 0xE8B7BE43#32, addr := 0, len := 0, olen := 0 }) := by
  decide +kernel

/-- K20: without a table the empty input fails too. -/
theorem test_checksum_unbuilt :
    (after (step (State.reset.withFetchWord 8 1))).response.map Response.err = some 7#3 := by decide +kernel

/-- E5: the frame, byte for byte. -/
theorem test_encode_A :
    (after (step { built (ascii "A") with request := some { op := 0b10#2, addr := 1#32, dlen := 1#32 } })).resultBytes =
      (frameText ":000000010001A85cdc411").map some := by
  decide +kernel

/-- E12: the length is checked before the table. -/
theorem test_encode_too_large :
    (after (exec (.encode 0#32 65536#32) State.reset)).response.map Response.err = some 6#3 := by decide +kernel

/-- V37: the payload's own marker and terminator bytes do not mislead the decoder. -/
theorem test_decode_delimiters :
    (after (exec (.decode 27#32) (built (frameText ":0000abcd0004:\r\n:05e9fde5")))).response =
      some (.done { crc := 0x05E9FDE5#32, addr := 0xABCD#32, len := 4, olen := 4 }) ∧
    (after (exec (.decode 27#32) (built (frameText ":0000abcd0004:\r\n:05e9fde5")))).resultBytes =
      (ascii ":\r\n:").map some := by
  decide +kernel

/-- V45: the length field claims a byte that is not there. -/
theorem test_decode_truncated :
    (after (exec (.decode 23#32) (built (frameText ":0000000000019afe9085")))).response =
      some (.failed .truncated) := by
  decide +kernel

/-- R197: a second request is refused, not queued. -/
theorem test_port_busy :
    ∀ r, (State.reset.withFetchWord 8 0).presentRequest r = .refused .requestWhileBusy := fun _ => rfl

/-! ### Witnesses, in the order of the statements -/

/-- The shortest frame (V13). -/
def shortest : List Byte := frameText ":000000000000edf9a013"

/-- A frame with one payload byte and letters in its address. -/
def oneByte : List Byte := frameText ":abcdef010001A7bbe8d19"

theorem wit_OperationCodesSelectOperations : fitsBuffer Config.params 65558#32 = true := by decide

theorem wit_RequestRoundTrip : Instr.wf Config.params (.encode 0xFFFFFFFF#32 65558#32) = true := by decide

theorem wit_DecodedOperationCarriesFields :
    decodeRequest Config.params { op := 0b10#2, addr := 5#32, dlen := 7#32 } = .ok (.encode 5#32 7#32) := by decide

theorem wit_UnreadFieldsHaveNoEffect : ∃ r r' : Request, r ≠ r' ∧ r.op = r'.op ∧
    (r.op ≠ 0b00#2 → r.dlen = r'.dlen) ∧ (r.op = 0b10#2 → r.addr = r'.addr) :=
  ⟨{ op := 0b11#2, addr := 1#32, dlen := 9#32 }, { op := 0b11#2, addr := 2#32, dlen := 9#32 }, by decide⟩

/-- Both sides of the capacity. -/
theorem wit_RequestRefusedExactlyBeyondCapacity :
    (smallest.bufBytes < (65559#32).toNat) ∧ ¬ smallest.bufBytes < (65558#32).toNat := by decide

theorem wit_StepRunsDecodedRequest : ∃ s r, State.resetIn s = false ∧ s.request = some r :=
  ⟨State.reset.withFetchWord 8 3, { op := 0b11#2, addr := 0, dlen := 0 }, by decide⟩

theorem wit_IdleStepChangesNothing : State.reset.resetIn = false ∧ State.reset.request = none := by decide

theorem wit_ResetStepEffect :
    (built shortest).assertReset.resetIn = true ∧ (built shortest).assertReset.request = none := by decide

theorem wit_BuildTableIsDeterministic : ∃ s s' t t', exec .buildTable s = .next t ∧ exec .buildTable s' = .next t' ∧
    s.Built ∧ s'.tvalid = false :=
  ⟨built [], unbuilt [], _, _, rfl, rfl, built_built [], rfl⟩

theorem wit_ChecksumEffect :
    (65558#32).toNat ≤ smallest.bufBytes ∧ (built []).Built ∧ (unbuilt []).tvalid = false :=
  ⟨by decide, built_built [], rfl⟩

theorem wit_ChecksumKnownVectors : (built (ascii "123456789")).Built ∧ (built (ascii "123456789")).inputBytes 9 =
    [0x31#8, 0x32#8, 0x33#8, 0x34#8, 0x35#8, 0x36#8, 0x37#8, 0x38#8, 0x39#8] :=
  ⟨built_built _, by decide +kernel⟩

theorem wit_ParseHexInvertsHexN : 0xFFFFFFFF < 16 ^ 8 ∧ 0xFFFF < 16 ^ 4 := by decide

/-- A field that ends where the sequence ends. -/
theorem wit_ParseHexAllOrNothing : 1 + 4 ≤ (ascii ":ffff").length ∧ parseHex true (ascii ":ffff") 1 4 = some 65535 := by
  decide

theorem wit_EncodeEffect : ∃ s a m body, State.Built s ∧ (m : Word).toNat ≤ 65535 ∧
    body = [0x3A#8] ++ hexN (a : Word).toNat 8 ++ hexN m.toNat 4 ++ s.inputBytes m.toNat :=
  ⟨built [], 0#32, 65535#32, _, built_built [], by decide, rfl⟩

/-- Both sides of the limit. -/
theorem wit_EncodePayloadTooLarge :
    65535 < (65536#32).toNat ∧ (65535#32).toNat ≤ 65535 ∧ (65535#32).toNat = 65535 ∧ (built []).Built :=
  ⟨by decide, by decide, by decide, built_built []⟩

theorem wit_EncodeNotInitialized :
    (unbuilt []).tvalid = false ∧ (65535#32).toNat ≤ 65535 ∧ 65535 < (65536#32).toNat := by decide

/-- The bytes the checksum of the shortest frame covers. -/
theorem wit_EncodeFrameLayout : (built []).Built ∧ (0#32).toNat ≤ 65535 ∧
    (ascii ":000000000000").length = 13 + (0#32).toNat ∧
    ∀ k < 13, (after (exec (.encode 0#32 0#32) (built []))).ob.read k = (ascii ":000000000000")[k]? :=
  ⟨built_built [], by decide, by decide, by decide +kernel⟩

theorem wit_DecodeInvalidStart : (0#32 : Word) = 0 ∧ (built (ascii "x")).inputByte 0 ≠ 0x3A#8 := by decide +kernel

/-- One byte (V2), and each byte of the terminator wrong (V9). -/
theorem wit_DecodeInvalidTerminator :
    ((1#32).toNat < 2 ∧ (built (ascii ":")).inputByte 0 = 0x3A#8) ∧
    ((built (ascii ":\n\n")).inputByte 0 = 0x3A#8 ∧ (built (ascii ":\n\n")).inputByte (3 - 2) ≠ 0x0D#8) ∧
    ((built (ascii ":\r\r")).inputByte 0 = 0x3A#8 ∧ (built (ascii ":\r\r")).inputByte (3 - 1) ≠ 0x0A#8) := by
  decide +kernel

/-- 3 bytes (V5) and 22 bytes (V12). -/
theorem wit_DecodeTruncatedShort :
    ((built (frameText ":")).inputByte 0 = 0x3A#8 ∧ (built (frameText ":")).inputByte (3 - 2) = 0x0D#8 ∧
      (built (frameText ":")).inputByte (3 - 1) = 0x0A#8) ∧
    ((built (frameText ":0000000000000000000")).inputByte 0 = 0x3A#8 ∧
      (built (frameText ":0000000000000000000")).inputByte (22 - 2) = 0x0D#8 ∧
      (built (frameText ":0000000000000000000")).inputByte (22 - 1) = 0x0A#8) := by
  decide +kernel

theorem framed_of_decide {F : List Byte}
    (h : 23 ≤ F.length ∧ F[0]? = some 0x3A#8 ∧ F[F.length - 2]? = some 0x0D#8 ∧ F[F.length - 1]? = some 0x0A#8) :
    Framed F :=
  ⟨h.1, h.2.1, h.2.2.1, h.2.2.2⟩

/-- The last digit of the field is none. -/
theorem wit_DecodeMalformedChecksumField : Framed ((unbuilt (frameText ":000000000000edf9a01g")).inputBytes 23) ∧
    hexval true ((unbuilt (frameText ":000000000000edf9a01g")).inputByte (23 - 10 + 7)) = none :=
  ⟨framed_of_decide (by decide +kernel), by decide +kernel⟩

theorem wit_DecodeNotInitialized : (unbuilt shortest).tvalid = false ∧ Framed ((unbuilt shortest).inputBytes 23) ∧
    ∀ k < 8, (hexval true ((unbuilt shortest).inputByte (23 - 10 + k))).isSome = true :=
  ⟨rfl, framed_of_decide (by decide +kernel), by decide +kernel⟩

/-- V14. -/
theorem wit_DecodeChecksumMismatch : Framed ((built (frameText ":00000000000000000000")).inputBytes 23) ∧
    parseHex true ((built (frameText ":00000000000000000000")).inputBytes 23) (23 - 10) 8 = some 0 ∧
    0 ≠ (crc32 (((built (frameText ":00000000000000000000")).inputBytes 23).take (23 - 10))).toNat :=
  ⟨framed_of_decide (by decide +kernel), by decide +kernel, by decide +kernel⟩

/-- The first digit of ADDR, and the last digit of LEN. -/
theorem wit_DecodeMalformedHeader :
    (Framed ((built (frameText ":g00000000000a51a1390")).inputBytes 23) ∧
      parseHex true ((built (frameText ":g00000000000a51a1390")).inputBytes 23) (23 - 10) 8 =
        some (crc32 (((built (frameText ":g00000000000a51a1390")).inputBytes 23).take (23 - 10))).toNat ∧
      hexval true ((built (frameText ":g00000000000a51a1390")).inputByte 1) = none) ∧
    (Framed ((built (frameText ":00000000000g18f66444")).inputBytes 23) ∧
      parseHex true ((built (frameText ":00000000000g18f66444")).inputBytes 23) (23 - 10) 8 =
        some (crc32 (((built (frameText ":00000000000g18f66444")).inputBytes 23).take (23 - 10))).toNat ∧
      hexval true ((built (frameText ":00000000000g18f66444")).inputByte 12) = none) :=
  ⟨⟨framed_of_decide (by decide +kernel), by decide +kernel, by decide +kernel⟩,
    framed_of_decide (by decide +kernel), by decide +kernel, by decide +kernel⟩

/-- LEN one too large (V45) and LEN one too small. -/
theorem wit_DecodeTruncatedLength :
    (Framed ((built (frameText ":0000000000019afe9085")).inputBytes 23) ∧
      parseHex true ((built (frameText ":0000000000019afe9085")).inputBytes 23) (23 - 10) 8 =
        some (crc32 (((built (frameText ":0000000000019afe9085")).inputBytes 23).take (23 - 10))).toNat ∧
      parseHex true ((built (frameText ":0000000000019afe9085")).inputBytes 23) 1 8 = some 0 ∧
      parseHex true ((built (frameText ":0000000000019afe9085")).inputBytes 23) 9 4 = some 1 ∧ 13 + 1 ≠ 23 - 10) ∧
    (Framed ((built (frameText ":000000000000A578a26f5")).inputBytes 24) ∧
      parseHex true ((built (frameText ":000000000000A578a26f5")).inputBytes 24) (24 - 10) 8 =
        some (crc32 (((built (frameText ":000000000000A578a26f5")).inputBytes 24).take (24 - 10))).toNat ∧
      parseHex true ((built (frameText ":000000000000A578a26f5")).inputBytes 24) 1 8 = some 0 ∧
      parseHex true ((built (frameText ":000000000000A578a26f5")).inputBytes 24) 9 4 = some 0 ∧ 13 + 0 ≠ 24 - 10) :=
  ⟨⟨framed_of_decide (by decide +kernel), by decide +kernel, by decide +kernel, by decide +kernel, by decide⟩,
    framed_of_decide (by decide +kernel), by decide +kernel, by decide +kernel, by decide +kernel, by decide⟩

/-- The shortest frame is accepted (V13). -/
theorem wit_DecodeAcceptedFrame : AcceptedAs true ((built shortest).inputBytes 23) 0xEDF9A013 0 0 :=
  ⟨framed_of_decide (by decide +kernel), by decide +kernel, by decide +kernel, by decide +kernel, by decide +kernel,
    by decide +kernel⟩

/-- A frame with one payload byte, accepted without upper case too. -/
theorem oneByte_accepted (upper : Bool) :
    AcceptedAs upper ((built oneByte).inputBytes 24) 0x7BBE8D19 0xABCDEF01 1 := by
  cases upper <;>
    exact ⟨framed_of_decide (by decide +kernel), by decide +kernel, by decide +kernel, by decide +kernel,
      by decide +kernel, by decide +kernel⟩

theorem wit_DecodeSucceedsExactlyOnAccepted : (built oneByte).Built ∧ Accepted true ((built oneByte).inputBytes 24) :=
  ⟨built_built _, _, _, _, oneByte_accepted true⟩

theorem oneByte_decoded :
    Answers (exec (.decode 24#32) (built oneByte)) (after (exec (.decode 24#32) (built oneByte)))
      (.done { crc := 0x7BBE8D19#32, addr := 0xABCDEF01#32, len := 1, olen := 1 }) :=
  answers_after (by decide +kernel)

theorem wit_DecodedMessageIsVerified : ∃ s t n F q, State.Inv s ∧ F = s.inputBytes (n : Word).toNat ∧
    Answers (exec (.decode n) s) t (.done q) :=
  ⟨_, _, _, _, _, built_inv _, rfl, oneByte_decoded⟩

theorem wit_DecodeAlwaysAnswers : (built []).Inv ∧ 65558 < (65559#32).toNat := ⟨built_inv [], by decide⟩

theorem oneByte_lower : LowerFields ((built oneByte).inputBytes 24) := by
  unfold LowerFields
  constructor
  · have h : ∀ k < 13, 1 ≤ k → (((built oneByte).inputBytes 24)[k]?.map isLowerDigit) = some true := by decide +kernel
    exact fun k h1 h2 => h k h2 h1
  · decide +kernel

theorem wit_AcceptedFrameForms : Accepted false ((built oneByte).inputBytes 24) ∧
    Accepted true ((built oneByte).inputBytes 24) ∧ LowerFields ((built oneByte).inputBytes 24) :=
  ⟨⟨_, _, _, oneByte_accepted false⟩, ⟨_, _, _, oneByte_accepted true⟩, oneByte_lower⟩

theorem oneByte_encoded :
    Answers (exec (.encode 0xABCDEF01#32 1#32) (built (ascii "A")))
      (after (exec (.encode 0xABCDEF01#32 1#32) (built (ascii "A"))))
      (.done { crc := 0x7BBE8D19#32, addr := 0, len := 0, olen := 24 }) :=
  answers_after (by decide +kernel)

theorem wit_FrameRoundTrip : ∃ (s t u : State) (a m : Word) (q : Result), s.Built ∧ m.toNat ≤ 65535 ∧
    Answers (exec (.encode a m) s) t (.done q) ∧ u.Built ∧ ∀ k < q.olen.toNat, t.ob.read k = some (u.inputByte k) :=
  ⟨_, _, built oneByte, _, _, _, built_built _, by decide, oneByte_encoded, built_built _, by decide +kernel⟩

theorem wit_CanonicalFrameReencodes : ∃ (s t u : State) (n : Word) (q : Result), s.Built ∧ Answers (exec (.decode n) s) t (.done q) ∧
    LowerFields (s.inputBytes n.toNat) ∧ u.Built ∧ ∀ k < q.olen.toNat, t.ob.read k = some (u.inputByte k) :=
  ⟨_, _, built (ascii "A"), _, _, built_built _, oneByte_decoded, oneByte_lower, built_built _, by decide +kernel⟩

theorem wit_EncodeIsInjective : ([] : List Byte).length ≤ 65535 ∧ encodedFrame 5#32 [] = encodedFrame 5#32 [] :=
  ⟨by decide, rfl⟩

/-- The first byte of the header, and the last byte of the payload. -/
theorem wit_SingleByteChangeIsDetected : Accepted true ((built oneByte).inputBytes 24) ∧
    ((built (frameText ":Abcdef010001A7bbe8d19")).inputByte 1 ≠ (built oneByte).inputByte 1 ∧
      ∀ j < 24, j ≠ 1 → (built (frameText ":Abcdef010001A7bbe8d19")).inputByte j = (built oneByte).inputByte j) ∧
    ((built (frameText ":abcdef010001B7bbe8d19")).inputByte 13 ≠ (built oneByte).inputByte 13 ∧ 13 < 24 - 10 ∧
      ∀ j < 24, j ≠ 13 → (built (frameText ":abcdef010001B7bbe8d19")).inputByte j = (built oneByte).inputByte j) :=
  ⟨⟨_, _, _, oneByte_accepted true⟩, by decide +kernel, by decide +kernel⟩

/-- Two states that differ in the last response and in the output. -/
theorem wit_OperationsAreIndependent : ∃ s s' t t', s ≠ s' ∧ State.Built s ∧ s'.Built ∧
    (∀ k < (encodeRequest (.checksum 1#32)).dlen.toNat, s.inputByte k = s'.inputByte k) ∧
    exec (.checksum 1#32) s = .next t ∧ exec (.checksum 1#32) s' = .next t' :=
  ⟨built (ascii "A"), { built (ascii "A") with ob := [(0, 1#8)], response := some (.failed .truncated) }, _, _,
    fun h => by simpa [built, State.reset] using congrArg State.response h, built_built _, ⟨rfl, rfl⟩,
    fun _ _ => rfl, rfl, rfl⟩

theorem unbuilt_inv (bs : List Byte) : (unbuilt bs).Inv :=
  ⟨.inl ⟨rfl, rfl⟩, wf_ofBytes 0 bs, wf_blank, fun r hr => by cases hr⟩

/-- `lazy` without the table against `explicit` with it, CHECKSUM (K4). -/
theorem wit_PoliciesAgreeOnSuccess : (unbuilt (ascii "a")).Inv ∧ (built (ascii "a")).Inv ∧
    (∀ k < (encodeRequest (.checksum 1#32)).dlen.toNat,
      (unbuilt (ascii "a")).inputByte k = (built (ascii "a")).inputByte k) ∧
    (after (execUnder { smallest with tableInit := .lazy } (.checksum 1#32) (unbuilt (ascii "a")))).response =
      some (.done { crc := 0xE8B7BE43#32, addr := 0, len := 0, olen := 0 }) ∧
    (after (execUnder smallest (.checksum 1#32) (built (ascii "a")))).response =
      some (.done { crc := 0xE8B7BE43#32, addr := 0, len := 0, olen := 0 }) :=
  ⟨unbuilt_inv _, built_inv _, fun _ _ => rfl, by decide +kernel, by decide +kernel⟩

/-- The same with `eager`, ENCODE. -/
theorem wit_PoliciesAgreeOnSuccess_encode : (unbuilt (ascii "A")).Inv ∧ (built (ascii "A")).Inv ∧
    (∀ k < (encodeRequest (.encode 0xABCDEF01#32 1#32)).dlen.toNat,
      (unbuilt (ascii "A")).inputByte k = (built (ascii "A")).inputByte k) ∧
    (after (execUnder { smallest with tableInit := .lazy } (.encode 0xABCDEF01#32 1#32)
      (unbuilt (ascii "A")))).response = some (.done { crc := 0x7BBE8D19#32, addr := 0, len := 0, olen := 24 }) ∧
    (after (execUnder { smallest with tableInit := .eager } (.encode 0xABCDEF01#32 1#32)
      (built (ascii "A")))).response = some (.done { crc := 0x7BBE8D19#32, addr := 0, len := 0, olen := 24 }) :=
  ⟨unbuilt_inv _, built_inv _, fun _ _ => rfl, by decide +kernel, by decide +kernel⟩

/-- The same, DECODE. -/
theorem wit_PoliciesAgreeOnSuccess_decode : (unbuilt oneByte).Inv ∧ (built oneByte).Inv ∧
    (∀ k < (encodeRequest (.decode 24#32)).dlen.toNat, (unbuilt oneByte).inputByte k = (built oneByte).inputByte k) ∧
    (after (execUnder { smallest with tableInit := .lazy } (.decode 24#32) (unbuilt oneByte))).response =
      some (.done { crc := 0x7BBE8D19#32, addr := 0xABCDEF01#32, len := 1, olen := 1 }) ∧
    (after (execUnder { smallest with tableInit := .eager } (.decode 24#32) (built oneByte))).response =
      some (.done { crc := 0x7BBE8D19#32, addr := 0xABCDEF01#32, len := 1, olen := 1 }) :=
  ⟨unbuilt_inv _, built_inv _, fun _ _ => rfl, by decide +kernel, by decide +kernel⟩

theorem reset_inv : State.reset.Inv :=
  ⟨.inl ⟨rfl, rfl⟩, wf_blank, wf_blank, fun r hr => by cases hr⟩

theorem wit_StepKeepsInvariant : ∃ s t, State.Inv s ∧ step s = .next t ∧ s ≠ t :=
  ⟨State.reset.withFetchWord 8 1, _, ⟨.inl ⟨rfl, rfl⟩, wf_blank, wf_blank,
    fun r hr => by cases hr⟩, rfl, by decide⟩

/-- Each port action on the reset state. -/
theorem wit_HostPortKeepsInvariant : State.reset.Inv ∧
    (∃ t, State.reset.presentRequest { op := 0b00#2, addr := 0, dlen := 0 } = .next t) ∧
    ∃ t, State.reset.supplyInput Config.params 65557 0#8 = .next t :=
  ⟨reset_inv, ⟨_, rfl⟩, _, rfl⟩

theorem wit_StepNeverFaults : (built oneByte).Inv := built_inv _

theorem wit_BuiltTableLastsUntilReset : ∃ s t, State.Built s ∧ s.resetIn = false ∧ step s = .next t :=
  ⟨(built []).withFetchWord 8 1, _, ⟨rfl, rfl⟩, rfl, rfl⟩

theorem wit_OnlyBuildTableWritesTable : ∃ s t, Instr.checksum 0#32 ≠ .buildTable ∧ exec (.checksum 0#32) s = .next t :=
  ⟨State.reset, _, by decide, rfl⟩

/-- A reset step, which must leave `IB` alone too. -/
theorem wit_InputBufferNeverWritten : ∃ s t, step s = .next t ∧ s.ib ≠ [] :=
  ⟨(built oneByte).assertReset, _, rfl, by decide +kernel⟩

theorem wit_FailedOperationLeavesState : ∃ s t, Answers (exec (.decode 0#32) s) t (.failed .invalidStart) :=
  ⟨State.reset, _, rfl, rfl⟩

theorem wit_UnusedResponseFieldsAreZero : ∃ s t t' t'' q q' q'', Answers (exec .buildTable s) t (.done q) ∧
    Answers (exec (.checksum 0#32) s) t' (.done q') ∧ Answers (exec (.encode 0#32 0#32) s) t'' (.done q'') :=
  ⟨built [], _, _, _, _, _, _, ⟨rfl, rfl⟩, ⟨rfl, rfl⟩, rfl, rfl⟩

theorem wit_ErrorCodesAndTheirOperations : ∃ s t t' t'',
    Answers (exec (.checksum 0#32) s) t (.failed .notInitialized) ∧
    Answers (exec (.encode 0#32 65536#32) s) t' (.failed .payloadTooLarge) ∧
    Answers (exec (.decode 0#32) s) t'' (.failed .invalidStart) :=
  ⟨State.reset, _, _, _, ⟨rfl, rfl⟩, ⟨rfl, rfl⟩, rfl, rfl⟩

theorem wit_EngineOperationsFrame : ∃ s t t', exec .buildTable s = .next t ∧ exec (.checksum 3#32) s = .next t' :=
  ⟨State.reset, _, _, rfl, rfl⟩

/-- Failing with PayloadTooLarge, and succeeding. -/
theorem wit_EncodeFrame : (∃ s t, Answers (exec (.encode 0#32 65536#32) s) t (.failed .payloadTooLarge)) ∧
    ∃ s t a m q, Answers (exec (.encode a m) s) t (.done q) :=
  ⟨⟨State.reset, _, rfl, rfl⟩, _, _, _, _, _, oneByte_encoded⟩

/-- Failing, and succeeding. -/
theorem wit_DecodeFrame : (∃ s t, Answers (exec (.decode 0#32) s) t (.failed .invalidStart)) ∧
    ∃ s t n q, Answers (exec (.decode n) s) t (.done q) :=
  ⟨⟨State.reset, _, rfl, rfl⟩, _, _, _, _, oneByte_decoded⟩

theorem wit_BusyPortRefusesHost : ∃ q, (State.reset.withFetchWord 8 2).request = some q := ⟨_, rfl⟩

/-- At the first offset that is no result. -/
theorem wit_OutputIsResultOnlyBelowLength : State.reset.response = none ∧
    ∃ r, (after (exec (.decode 24#32) (built oneByte))).response = some r ∧ r.olen.toNat ≤ 1 :=
  ⟨rfl, _, oneByte_decoded.2, by decide⟩

theorem wit_RequestEndsInOneResponse : ∃ s r i, State.Inv s ∧ s.resetIn = false ∧ s.request = some r ∧
    decodeRequest Config.params r = .ok i :=
  ⟨{ built oneByte with request := some { op := 0b11#2, addr := 0, dlen := 24#32 } }, _, .decode 24#32,
    ⟨.inr ⟨rfl, rfl⟩, wf_ofBytes 0 _, wf_blank, fun r hr => by cases hr⟩, rfl, rfl, by decide⟩

end Sys2Proof.Tests
end

section
/-! SUPPORT. Rules the state family uses: what a failing operation can be, and the decoder's equation for each code. -/

namespace Sys2Proof

variable {p : Config.Params} {r : Request}

theorem decodeRequest_of_op_buildTable (h : r.op = 0b00#2) : decodeRequest p r = .ok .buildTable := by
  simp [decodeRequest, h]

theorem decodeRequest_of_op_checksum (h : r.op = 0b01#2) :
    decodeRequest p r = withLength p r.dlen (.checksum r.dlen) := by
  simp [decodeRequest, h]

theorem decodeRequest_of_op_encode (h : r.op = 0b10#2) :
    decodeRequest p r = withLength p r.dlen (.encode r.addr r.dlen) := by
  simp [decodeRequest, h]

theorem decodeRequest_of_op_decode (h : r.op = 0b11#2) :
    decodeRequest p r = withLength p r.dlen (.decode r.dlen) := by
  simp [decodeRequest, h]

end Sys2Proof

namespace Sys2Proof.Machine

variable {s t : State}

/-- No error has the number of success (R63). -/
theorem ErrorCode.code_ne_zero (e : ErrorCode) : e.code ≠ 0#3 := by
  cases e <;> decide

/-- No offset at or beyond the valid output holds a result (R43, R200). -/
theorem resultByte_eq_none {k : Nat} (h : s.validOutput ≤ k) : s.resultByte k = none := by
  simp [State.resultByte, Nat.not_lt.mpr h]

@[simp] theorem raise_validOutput (s : State) (e : ErrorCode) : (s.raise e).validOutput = 0 := rfl

/-- An operation that ended by raising an error answers with that error alone. -/
theorem eq_raise_of_answers_raise {e e' : ErrorCode} (h : Answers (.next (s.raise e')) t (.failed e)) :
    t = s.raise e := by
  obtain ⟨⟨⟩, hr⟩ := h
  cases hr
  rfl

/-- An operation that ended with results answers no error. -/
theorem not_answers_complete_failed (q : Result) (e : ErrorCode) :
    ¬ Answers (.next (s.complete q)) t (.failed e) := by
  rintro ⟨⟨⟩, hr⟩
  cases hr

/-- An operation that faults gives no answer. -/
theorem not_answers_fault (f : Fault) (r : Response) : ¬ Answers (.fault f) t r :=
  fun h => nomatch h.1

/-- The only way to fail is to raise the error in the state the operation started from (R30, R175): no path to an
error has written anything before it. -/
theorem eq_raise_of_exec_failed {i : Instr} {e : ErrorCode} (h : Answers (exec i s) t (.failed e)) :
    t = s.raise e := by
  cases i with
  | buildTable => exact absurd h (not_answers_complete_failed _ e)
  | checksum m =>
    change Answers (execChecksum m s) t _ at h
    obtain ⟨-, hx⟩ | ⟨-, -, hx⟩ | ⟨v, -, -, hx⟩ := execChecksum_cases m s <;> rw [hx] at h
    · exact eq_raise_of_answers_raise h
    · exact absurd h (not_answers_fault _ _)
    · exact absurd h (not_answers_complete_failed _ e)
  | encode a m =>
    change Answers (execEncode a m s) t _ at h
    obtain ⟨-, hx⟩ | ⟨-, -, hx⟩ | ⟨-, -, -, hx⟩ | ⟨v, c, -, -, -, -, hx⟩ :=
      execEncode_cases a m s <;> rw [hx] at h
    · exact eq_raise_of_answers_raise h
    · exact eq_raise_of_answers_raise h
    · exact absurd h (not_answers_fault _ _)
    · exact absurd h (not_answers_complete_failed _ e)
  | decode n =>
    change Answers (execDecode n s) t _ at h
    obtain ⟨e', -, hx⟩ | ⟨c, -, ⟨-, hx⟩ | ⟨-, -, hx⟩ | ⟨v, -, -, ⟨-, hx⟩ | ⟨-, ⟨e', -, hx⟩ | ⟨f, -, hx⟩⟩⟩⟩ :=
      execDecode_cases n s <;> rw [hx] at h
    · exact eq_raise_of_answers_raise h
    · exact eq_raise_of_answers_raise h
    · exact absurd h (not_answers_fault _ _)
    · exact eq_raise_of_answers_raise h
    · exact eq_raise_of_answers_raise h
    · exact absurd h (not_answers_complete_failed _ e)

end Sys2Proof.Machine
end

section
/-! PROOFS. The statements of the family 10_state.md. -/

namespace Sys2Proof.Proofs

open Sys2Proof.Machine

/-- Settles O52: the state after a failure is `s.raise e`, whose fields the laws of the state give. -/
theorem failedOperationLeavesState : Obligations.FailedOperationLeavesState := by
  unfold Obligations.FailedOperationLeavesState
  intro i s t e h
  obtain rfl : t = s.raise e := eq_raise_of_exec_failed h
  have hob : ∀ k, (s.raise e).resultByte k = none := fun k => resultByte_eq_none (by simp)
  exact ⟨raise_tvalid s e, raise_table s e, fun k => by rw [raise_ib], raise_request s e,
    rfl, e.code_ne_zero, rfl, rfl, rfl, failed_olen e, hob⟩

/-- Settles O4, code by code: the decoder's equation for a code names only the fields that its operation reads. -/
theorem unreadFieldsHaveNoEffect : Obligations.UnreadFieldsHaveNoEffect := by
  unfold Obligations.UnreadFieldsHaveNoEffect
  intro p r r' hop hdlen haddr
  obtain ho | ho | ho | ho := opCode_cases r.op <;> have ho' := hop ▸ ho
  · rw [decodeRequest_of_op_buildTable ho, decodeRequest_of_op_buildTable ho']
  · rw [decodeRequest_of_op_checksum ho, decodeRequest_of_op_checksum ho', hdlen (by simp [ho])]
  · rw [decodeRequest_of_op_encode ho, decodeRequest_of_op_encode ho', hdlen (by simp [ho]), haddr ho]
  · rw [decodeRequest_of_op_decode ho, decodeRequest_of_op_decode ho', hdlen (by simp [ho])]

end Sys2Proof.Proofs
end

section
/-! SUPPORT. Rules the memory family uses: how every operation ends, and what that leaves of the two buffers. -/

namespace Sys2Proof.Machine

variable {s t u : State} {i : Instr} {r : Response}

/-- Reset leaves `IB` to the host (R190). -/
@[simp] theorem takeReset_ib (init : Config.TableInit) (s : State) : (s.takeReset init).ib = s.ib := by
  cases init <;> rfl

/-- A pending request that decodes is served as one whole operation (R11). -/
theorem step_eq_exec {q : Request} (hreset : s.resetIn = false) (hreq : s.request = some q)
    (hdec : decodeRequest Config.params q = .ok i) : step s = exec i s := by
  simp [step, hreset, hreq, hdec]

/-- The invariant rules out `TVALID = 1` without a table (R23). -/
theorem State.Inv.table_ne_none (h : s.Inv) (hv : s.tvalid = true) : s.table ≠ none := by
  obtain ⟨hf, -⟩ | ⟨-, ht⟩ := h.tableCoherent
  · simp [hf] at hv
  · simp [ht]

/-- An accepted length fits its four digits (R72, R134). -/
theorem extractFields_len_lt {upper : Bool} {F : List Byte} {f : Fields} (h : extractFields upper F = .ok f) :
    f.len < 65536 := by
  obtain ⟨a, -, -, hlen, -, -⟩ := extractFields_ok h
  exact parseHex_lt hlen

/-- The payload has as many bytes as the accepted length says (R136, R137). -/
theorem extractFields_payload_length {upper : Bool} {F : List Byte} {f : Fields}
    (h : extractFields upper F = .ok f) : f.payload.length = f.len := by
  obtain ⟨a, -, -, -, hagree, hpay⟩ := extractFields_ok h
  rw [crcOffset] at hagree
  rw [hpay, List.length_take, List.length_drop]
  omega

/-- A response without output is one that follows an empty output. -/
theorem respond_eq_storeOutput_nil (s : State) (h : r.olen = 0) : s.respond r = (s.storeOutput []).respond r := by
  simp [State.respond, State.storeOutput, Memory.ofBytes, h]

/-- The operation ends with one response given in `u`, its output being exactly the bytes the response counts
(R28, R43). -/
def EndsFrom (u : State) (o : Host.Outcome State Fault Refusal) : Prop :=
  ∃ bs r, bs.length = r.olen.toNat ∧ o = .next ((u.storeOutput bs).respond r)

theorem endsFrom_raise {o : Host.Outcome State Fault Refusal} {e : ErrorCode} (h : o = .next (u.raise e)) :
    EndsFrom u o :=
  ⟨[], .failed e, rfl, h.trans (congrArg _ (respond_eq_storeOutput_nil u rfl))⟩

theorem endsFrom_complete {o : Host.Outcome State Fault Refusal} {q : Result} (hq : q.olen = 0)
    (h : o = .next (u.complete q)) : EndsFrom u o :=
  ⟨[], .done q, by simp [hq], h.trans (congrArg _ (respond_eq_storeOutput_nil u hq))⟩

theorem endsFrom_storeOutput_complete {o : Host.Outcome State Fault Refusal} {q : Result} {bs : List Byte}
    (hq : bs.length = q.olen.toNat) (h : o = .next ((u.storeOutput bs).complete q)) : EndsFrom u o :=
  ⟨bs, .done q, hq, h⟩

/-- What an ending answers, and what it leaves unchanged (R28, R42, R43). -/
theorem EndsFrom.answers {o : Host.Outcome State Fault Refusal} (h : EndsFrom u o) :
    ∃ t r, o = .next t ∧ t.ib = u.ib ∧ t.resetIn = u.resetIn ∧ t.request = none ∧ t.response = some r ∧
      ∀ k, (t.ob.read k).isSome = true ↔ k < r.olen.toNat := by
  obtain ⟨bs, r, hlen, ho⟩ := h
  refine ⟨_, r, ho, respond_ib _ r, respond_resetIn _ r, respond_request _ r, respond_response _ r, fun k => ?_⟩
  rw [respond_ob, storeOutput_ob, below_ofBytes hlen.le, read_ofBytes_zero, ← hlen]
  simp

/-- Everything an operation can do: it faults on `TVALID = 1` without a table, or it ends from the state it started in,
BUILD_TABLE from that state with the table built. -/
theorem exec_cases (i : Instr) (s : State) :
    (s.tvalid = true ∧ s.table = none ∧ exec i s = .fault .tableHoldsNoValue) ∨
    ∃ u, (u = s ∨ i = .buildTable ∧ u = s.buildTable) ∧ EndsFrom u (exec i s) := by
  have ends (hs : EndsFrom s (exec i s)) :
      ∃ u, (u = s ∨ i = .buildTable ∧ u = s.buildTable) ∧ EndsFrom u (exec i s) := ⟨s, .inl rfl, hs⟩
  cases i with
  | buildTable => exact .inr ⟨s.buildTable, .inr ⟨rfl, rfl⟩, endsFrom_complete rfl rfl⟩
  | checksum m =>
    obtain ⟨-, hx⟩ | hfault | ⟨v, -, -, hx⟩ := execChecksum_cases m s
    · exact .inr (ends (endsFrom_raise hx))
    · exact .inl hfault
    · exact .inr (ends (endsFrom_complete rfl hx))
  | encode a m =>
    obtain ⟨-, hx⟩ | ⟨-, -, hx⟩ | ⟨-, hfault⟩ | ⟨v, c, hm, -, -, -, hx⟩ := execEncode_cases a m s
    · exact .inr (ends (endsFrom_raise hx))
    · exact .inr (ends (endsFrom_raise hx))
    · exact .inl hfault
    · refine .inr (ends (endsFrom_storeOutput_complete ?_ hx))
      simp only [Config.maxPayload, Config.minFrame, frameWith_length, inputBytes_length, BitVec.toNat_ofNat] at hm ⊢
      omega
  | decode n =>
    obtain ⟨e, -, hx⟩ | ⟨c, -, ⟨-, hx⟩ | hfault | ⟨v, -, -, ⟨-, hx⟩ | ⟨-, ⟨e, -, hx⟩ | ⟨f, hf, hx⟩⟩⟩⟩ :=
      execDecode_cases n s
    · exact .inr (ends (endsFrom_raise hx))
    · exact .inr (ends (endsFrom_raise hx))
    · exact .inl hfault
    · exact .inr (ends (endsFrom_raise hx))
    · exact .inr (ends (endsFrom_raise hx))
    · refine .inr (ends (endsFrom_storeOutput_complete ?_ hx))
      have hlt := extractFields_len_lt hf
      simp only [extractFields_payload_length hf, BitVec.toNat_ofNat]
      omega

/-- No operation that ends, in success or failure, has written `IB` (R42). -/
theorem exec_ib (h : exec i s = .next t) : t.ib = s.ib := by
  obtain ⟨-, -, hx⟩ | ⟨u, hu, hends⟩ := exec_cases i s
  · cases hx.symm.trans h
  · obtain ⟨t', r, hx, hib, -⟩ := hends.answers
    cases hx.symm.trans h
    obtain rfl | ⟨-, rfl⟩ := hu <;> exact hib

/-- No step writes `IB`: neither reset, nor the idle step, nor an operation (R42). -/
theorem step_ib (h : step s = .next t) : t.ib = s.ib := by
  obtain ⟨-, hx⟩ | ⟨-, -, hx⟩ | ⟨q, -, -, -, hx⟩ | ⟨q, i, -, -, -, hx⟩ := step_cases s <;> rw [hx] at h
  · cases h
    exact takeReset_ib _ s
  · cases h
    rfl
  · cases h
  · exact exec_ib h

/-- In a state of the invariant every operation ends with one response, its output stated exactly (R177, R43). -/
theorem exec_answers_of_inv (i : Instr) (h : s.Inv) :
    ∃ t r, exec i s = .next t ∧ t.response = some r ∧ t.request = none ∧ t.resetIn = s.resetIn ∧
      ∀ k, (t.ob.read k).isSome = true ↔ k < r.olen.toNat := by
  obtain ⟨hv, hn, -⟩ | ⟨u, hu, hends⟩ := exec_cases i s
  · exact absurd hn (h.table_ne_none hv)
  · obtain ⟨t, r, hx, -, hreset, hreq, hresp, hob⟩ := hends.answers
    have hkeep : u.resetIn = s.resetIn := by
      obtain rfl | ⟨-, rfl⟩ := hu <;> rfl
    exact ⟨t, r, hx, hresp, hreq, hreset.trans hkeep, hob⟩

end Sys2Proof.Machine
end

section
/-! PROOFS. The statements of the family 20_memory.md. -/

namespace Sys2Proof.Proofs

open Sys2Proof.Machine

/-- Settles O51: no step writes `IB` at all, so it reads as before at every offset. -/
theorem inputBufferNeverWritten : Obligations.InputBufferNeverWritten := by
  unfold Obligations.InputBufferNeverWritten
  intro s t h k
  rw [step_ib h]

/-- Settles O60: the step is the operation, and from the invariant every operation ends in one response. -/
theorem requestEndsInOneResponse : Obligations.RequestEndsInOneResponse := by
  unfold Obligations.RequestEndsInOneResponse
  intro s r i hinv hreset hreq hdec
  obtain ⟨t, p, hx, hresp, hnone, hkeep, hob⟩ := exec_answers_of_inv i hinv
  exact ⟨t, p, (step_eq_exec hreset hreq hdec).trans hx, hresp, hnone, hkeep.trans hreset, hob⟩

end Sys2Proof.Proofs
end

section
/-! SUPPORT. Rules the encoding family uses: the values of digits, the digits of a field, the parts of a frame by
offset, and ENCODE with the table built. -/

namespace Sys2Proof

/-- A length that fits lets the operation through (R77 (e)). -/
theorem withLength_of_fits {p : Config.Params} {d : Word} (i : Instr) (h : fitsBuffer p d = true) :
    withLength p d i = .ok i :=
  if_pos h

end Sys2Proof

namespace Sys2Proof.Machine

/-- The digits `0` to `9` (R70). -/
theorem hexval_decimal (upper : Bool) {v : Nat} (h : v < 10) :
    hexval upper (BitVec.ofNat 8 (0x30 + v)) = some v := by
  have hb : (BitVec.ofNat 8 (0x30 + v)).toNat = 0x30 + v := Nat.mod_eq_of_lt (by omega)
  rw [hexval, hb, if_pos (by omega), Nat.add_sub_cancel_left]

/-- The digits `a` to `f` (R70). -/
theorem hexval_lower (upper : Bool) {v : Nat} (h : v < 6) :
    hexval upper (BitVec.ofNat 8 (0x61 + v)) = some (10 + v) := by
  have hb : (BitVec.ofNat 8 (0x61 + v)).toNat = 0x61 + v := Nat.mod_eq_of_lt (by omega)
  rw [hexval, hb, if_neg (by omega), if_pos (by omega), Nat.add_sub_cancel_left, Nat.add_comm]

/-- The digits `A` to `F`, where the decoder takes upper case (R8, R70). -/
theorem hexval_upper {v : Nat} (h : v < 6) : hexval true (BitVec.ofNat 8 (0x41 + v)) = some (10 + v) := by
  have hb : (BitVec.ofNat 8 (0x41 + v)).toNat = 0x41 + v := Nat.mod_eq_of_lt (by omega)
  rw [hexval, hb, if_neg (by omega), if_neg (by omega), if_pos ⟨by omega, by omega, rfl⟩, Nat.add_sub_cancel_left,
    Nat.add_comm]

/-- Reading a written digit gives its value back, under either case rule (R69, R70). -/
theorem hexval_hexdig (upper : Bool) {v : Nat} (h : v < 16) : hexval upper (hexdig v) = some v := by
  rw [hexdig]
  split
  · exact hexval_decimal upper (by omega)
  · rw [hexval_lower upper (by omega)]
    exact congrArg some (by omega)

/-- The digits of a field by position, the most significant first (R71). -/
theorem hexN_getElem? (v : Nat) {N k : Nat} (h : k < N) :
    (hexN v N)[k]? = some (hexdig (v / 16 ^ (N - 1 - k) % 16)) := by
  have hdigit : (v >>> (4 * (N - 1 - k))) &&& 0xF = v / 16 ^ (N - 1 - k) % 16 := by
    rw [Nat.and_two_pow_sub_one_eq_mod _ 4, Nat.shiftRight_eq_div_pow, Nat.pow_mul]
  simp [hexN, h, hdigit]

section
variable (a c : Word) (P : List Byte) {k : Nat}

/-- The start marker stands at offset 0 (R66). -/
theorem frameBody_getElem?_start : (frameBody a P)[0]? = some colon := rfl

/-- ADDR stands at offsets 1 to 8 (R66). -/
theorem frameBody_getElem?_addr (h : k < 8) : (frameBody a P)[1 + k]? = (hexN a.toNat 8)[k]? := by
  rw [frameBody, Nat.add_comm, List.getElem?_cons_succ, List.append_assoc,
    List.getElem?_append_left (by simpa)]

/-- LEN stands at offsets 9 to 12 (R66). -/
theorem frameBody_getElem?_len (h : k < 4) : (frameBody a P)[9 + k]? = (hexN P.length 4)[k]? := by
  rw [frameBody, show 9 + k = 8 + k + 1 by omega, List.getElem?_cons_succ,
    List.getElem?_append_left (by simp; omega), List.getElem?_append_right (by simp), hexN_length,
    Nat.add_sub_cancel_left]

/-- PAYLOAD stands from offset 13 on (R66). -/
theorem frameBody_getElem?_payload : (frameBody a P)[13 + k]? = P[k]? := by
  rw [frameBody, show 13 + k = 12 + k + 1 by omega, List.getElem?_cons_succ, List.getElem?_append_right (by simp)]
  simp

/-- The covered bytes stand before the CRC field (R66, R74). -/
theorem frameWith_getElem?_body (h : k < 13 + P.length) : (frameWith a P c)[k]? = (frameBody a P)[k]? := by
  rw [frameWith, List.append_assoc, List.getElem?_append_left (by simpa)]

/-- CRC stands right after the covered bytes (R66). -/
theorem frameWith_getElem?_crc (h : k < 8) : (frameWith a P c)[13 + P.length + k]? = (hexN c.toNat 8)[k]? := by
  rw [frameWith, List.getElem?_append_left (by simpa), List.getElem?_append_right (by simp), frameBody_length,
    Nat.add_sub_cancel_left]

/-- The terminator stands right after CRC (R66). -/
theorem frameWith_getElem?_terminator {n : Nat} (h : n = 21 + P.length + k) :
    (frameWith a P c)[n]? = [cr, lf][k]? := by
  have hfields : (frameBody a P ++ hexN c.toNat 8).length = 21 + P.length := by
    rw [List.length_append, frameBody_length, hexN_length]
    omega
  rw [frameWith, h, ← hfields, List.getElem?_append_right (Nat.le_add_right _ _), Nat.add_sub_cancel_left]

end

/-- A sequence that agrees with the frame on the covered length is the covered bytes (R74). -/
theorem eq_frameBody_of_agrees {a c : Word} {P covered : List Byte} (hlen : covered.length = 13 + P.length)
    (h : ∀ k < 13 + P.length, (frameWith a P c)[k]? = covered[k]?) : covered = frameBody a P := by
  refine List.ext_getElem? fun k => ?_
  by_cases hk : k < 13 + P.length
  · rw [← h k hk, frameWith_getElem?_body a c P hk]
  · rw [List.getElem?_eq_none (by omega), List.getElem?_eq_none (by rw [frameBody_length]; omega)]

/-- ENCODE with the table built and a payload that fits (R110): the frame in `OB`, its length and its checksum. -/
theorem exec_encode_of_built {s : State} (a : Word) {m : Word} (hs : s.Built) (hm : m.toNat ≤ Config.maxPayload) :
    exec (.encode a m) s = .next { s with
      request := none
      ob := Memory.ofBytes 0 (encodedFrame a (s.inputBytes m.toNat))
      response := some (.done { crc := crc32 (frameBody a (s.inputBytes m.toNat)), addr := 0, len := 0,
                                olen := BitVec.ofNat 32 (23 + m.toNat) }) } := by
  have hx : exec (.encode a m) s =
      .next ((s.storeOutput (encodedFrame a (s.inputBytes m.toNat))).complete
        { crc := crc32 (frameBody a (s.inputBytes m.toNat)), addr := 0, len := 0,
          olen := BitVec.ofNat 32 (23 + m.toNat) }) := by
    simp [exec, execEncode, encodeOp, Nat.not_lt.mpr hm, requestTable_built _ hs, crc32With_built, encodedFrame,
      Config.minFrame]
  have hfit : (encodedFrame a (s.inputBytes m.toNat)).length ≤ (BitVec.ofNat 32 (23 + m.toNat)).toNat := by
    simp only [Config.maxPayload] at hm
    simp only [encodedFrame, frameWith_length, inputBytes_length, BitVec.toNat_ofNat]
    omega
  exact hx.trans (congrArg _ (storeOutput_complete_eq hfit))

end Sys2Proof.Machine
end

section
/-! PROOFS. The statements of the family 30_encoding.md. -/

namespace Sys2Proof.Proofs

open Sys2Proof.Machine

/-- Settles O25: after ENCODE `OB` lists the encoded frame, whose parts the laws of the frame give by offset. -/
theorem encodeFrameLayout : Obligations.EncodeFrameLayout := by
  unfold Obligations.EncodeFrameLayout
  intro s a m hs hm
  have hlen : (s.inputBytes m.toNat).length = m.toNat := inputBytes_length s _
  refine ⟨_, _, ⟨exec_encode_of_built a hs hm, rfl⟩, ?_⟩
  simp only [read_ofBytes_zero, encodedFrame]
  refine ⟨Nat.mod_eq_of_lt (by omega), ?_, fun k hk => ?_, fun k hk => ?_, fun k hk => ?_, fun k hk => ?_, ?_, ?_,
    fun covered hcov hagree => ?_⟩
  · exact (frameWith_getElem?_body _ _ _ (by omega)).trans (frameBody_getElem?_start a _)
  · rw [frameWith_getElem?_body _ _ _ (by omega), frameBody_getElem?_addr _ _ hk, hexN_getElem? _ hk]
  · rw [frameWith_getElem?_body _ _ _ (by omega), frameBody_getElem?_len _ _ hk, hexN_getElem? _ hk, hlen]
  · rw [frameWith_getElem?_body _ _ _ (by omega), frameBody_getElem?_payload, inputBytes_getElem?, if_pos hk]
  · rw [← hexN_getElem? _ hk, ← frameWith_getElem?_crc a _ (s.inputBytes m.toNat) hk, hlen]
  · exact frameWith_getElem?_terminator a _ _ (k := 0) (by omega)
  · exact frameWith_getElem?_terminator a _ _ (k := 1) (by omega)
  · rw [eq_frameBody_of_agrees (hcov.trans (by rw [hlen])) (by rwa [hlen])]

/-- Settles O1: the decoder's equation for each code, with a length that fits; the code space is full. -/
theorem operationCodesSelectOperations : Obligations.OperationCodesSelectOperations := by
  unfold Obligations.OperationCodesSelectOperations
  refine ⟨fun a d hfit => ⟨decodeRequest_of_op_buildTable rfl, ?_, ?_, ?_⟩, opCode_cases⟩
  · rw [decodeRequest_of_op_checksum rfl, withLength_of_fits _ hfit]
  · rw [decodeRequest_of_op_encode rfl, withLength_of_fits _ hfit]
  · rw [decodeRequest_of_op_decode rfl, withLength_of_fits _ hfit]

/-- Settles O19: the counts by evaluation over the 256 bytes, the values by the ranges of R70. -/
theorem hexDigitsAndValues : Obligations.HexDigitsAndValues := by
  unfold Obligations.HexDigitsAndValues
  refine ⟨by decide, by decide, fun upper v hv => hexval_decimal upper hv,
    fun upper v hv => hexval_lower upper hv, fun v hv => hexval_upper hv, fun v hv => hexval_hexdig false hv⟩

end Sys2Proof.Proofs
end

section
/-! SUPPORT. Rules the engine family uses: BUILD_TABLE and CHECKSUM as equations, and the checksum without the table. -/

namespace Sys2Proof.Machine

variable {s : State}

/-- BUILD_TABLE as an equation, from any state (R92, R93): of the state before it only `IB` and the reset input stay. -/
theorem exec_buildTable_eq (s : State) :
    exec .buildTable s = .next { s with
      tvalid := true, table := some builtTable, request := none, ob := Memory.blank
      response := some (.done { crc := 0, addr := 0, len := 0, olen := 0 }) } :=
  congrArg Host.Outcome.next (complete_eq (s := s.buildTable) rfl)

/-- CHECKSUM with the table built (R97). -/
theorem exec_checksum_of_built (m : Word) (hs : s.Built) :
    exec (.checksum m) s = .next { s with
      ob := Memory.blank, request := none
      response := some (.done { crc := crc32 (s.inputBytes m.toNat), addr := 0, len := 0, olen := 0 }) } := by
  have hx : exec (.checksum m) s =
      .next (s.complete { crc := crc32 (s.inputBytes m.toNat), addr := 0, len := 0, olen := 0 }) := by
    simp [exec, execChecksum, checksumOp, requestTable_built _ hs, crc32With_built]
  exact hx.trans (congrArg _ (complete_eq rfl))

/-- CHECKSUM without a table (R98). -/
theorem exec_checksum_of_notBuilt (m : Word) (hv : s.tvalid = false) :
    exec (.checksum m) s = .next { s with
      ob := Memory.blank, request := none, response := some (.failed .notInitialized) } := by
  have hx : exec (.checksum m) s = .next (s.raise .notInitialized) := by
    simp [exec, execChecksum, checksumOp, requestTable_notBuilt hv]
  exact hx.trans (congrArg _ (raise_eq s _))

/-- The checksum with each table read replaced by the entry function, so that it can be evaluated without building the
table (R95, R96). -/
theorem crc32_eq_foldl_tableEntry (bs : List Byte) :
    crc32 bs = ~~~(bs.foldl (fun (acc : Word) c => (acc >>> 8) ^^^ tableEntry (crcIndex acc c)) crcInit) := by
  rw [crc32, crc32With, funext₂ crcStep_built]

/-- The checksum of no bytes (R99). -/
theorem crc32_nil : crc32 [] = 0x00000000#32 := by
  rw [crc32_eq_foldl_tableEntry]
  decide

/-- The check value of the CRC-32: the checksum of the text `123456789` (R151). -/
theorem crc32_checkValue :
    crc32 [0x31#8, 0x32#8, 0x33#8, 0x34#8, 0x35#8, 0x36#8, 0x37#8, 0x38#8, 0x39#8] = 0xCBF43926#32 := by
  rw [crc32_eq_foldl_tableEntry]
  decide

end Sys2Proof.Machine
end

section
/-! PROOFS. The statements of the family 40_crc32_engine.md. -/

namespace Sys2Proof.Proofs

open Sys2Proof.Machine

/-- Settles O15: the decoder's equation for code 00, BUILD_TABLE's own equation, and the law of reading the built
table. -/
theorem buildTableEffect : Obligations.BuildTableEffect := by
  unfold Obligations.BuildTableEffect
  exact ⟨fun p a d => decodeRequest_of_op_buildTable rfl, exec_buildTable_eq, tableRead_built⟩

/-- Settles O16: BUILD_TABLE writes the same `TVALID` and `TABLE` into every state, and a built block already holds
them. -/
theorem buildTableIsDeterministic : Obligations.BuildTableIsDeterministic := by
  unfold Obligations.BuildTableIsDeterministic
  intro s s' t t' h h'
  cases (exec_buildTable_eq s).symm.trans h
  cases (exec_buildTable_eq s').symm.trans h'
  exact ⟨rfl, rfl, fun ⟨hvalid, htable⟩ => ⟨hvalid.symm, htable.symm⟩⟩

/-- Settles O17: the decoder's equation for code 01 with a length that fits, and CHECKSUM's equations with and without
the table. -/
theorem checksumEffect : Obligations.ChecksumEffect := by
  unfold Obligations.ChecksumEffect
  refine ⟨fun p a m hm => ?_, fun s m => ⟨fun hs => ⟨_, exec_checksum_of_built m hs⟩,
    fun hv => ⟨_, exec_checksum_of_notBuilt m hv⟩⟩⟩
  rw [decodeRequest_of_op_checksum rfl, withLength_of_fits _ ((fitsBuffer_iff p m).mpr hm)]

/-- Settles O18: CHECKSUM answers with the checksum of the input bytes, and both values are known. -/
theorem checksumKnownVectors : Obligations.ChecksumKnownVectors := by
  unfold Obligations.ChecksumKnownVectors
  intro s hs
  refine ⟨⟨_, exec_checksum_of_built _ hs, ?_⟩, fun hbytes => ⟨_, exec_checksum_of_built _ hs, ?_⟩⟩
  · have hnil : s.inputBytes (0#32).toNat = [] := rfl
    rw [hnil, crc32_nil]
  · have hnine : s.inputBytes (9#32).toNat = s.inputBytes 9 := rfl
    rw [hnine, hbytes, crc32_checkValue]

end Sys2Proof.Proofs
end

section
/-! SUPPORT. Rules the encoder family uses: the two failures of ENCODE as equations, and the bytes its checksum covers
written out. -/

namespace Sys2Proof.Machine

variable {s t : State} {m : Word}

/-- ENCODE of a payload that is too long, whatever `TVALID` is (R111). -/
theorem exec_encode_of_tooLarge (a : Word) (hm : Config.maxPayload < m.toNat) :
    exec (.encode a m) s = .next (s.raise .payloadTooLarge) := by
  simp [exec, execEncode, encodeOp, hm]

/-- ENCODE without a table, of a payload that fits (R115). -/
theorem exec_encode_of_notBuilt (a : Word) (hv : s.tvalid = false) (hm : m.toNat ≤ Config.maxPayload) :
    exec (.encode a m) s = .next (s.raise .notInitialized) := by
  simp [exec, execEncode, encodeOp, Nat.not_lt.mpr hm, requestTable_notBuilt hv]

/-- An operation that ended by raising an error answers no other error. -/
theorem error_eq_of_answers_raise {e e' : ErrorCode} (h : Answers (.next (s.raise e')) t (.failed e)) : e' = e := by
  obtain ⟨⟨⟩, hr⟩ := h
  cases hr
  rfl

/-- PayloadTooLarge is answered for no payload that fits (R111). -/
theorem maxPayload_lt_of_answers_payloadTooLarge {a : Word}
    (h : Answers (exec (.encode a m) s) t (.failed .payloadTooLarge)) : Config.maxPayload < m.toNat := by
  change Answers (execEncode a m s) t _ at h
  obtain ⟨hm, -⟩ | ⟨-, -, hx⟩ | ⟨-, -, -, hx⟩ | ⟨v, c, -, -, -, -, hx⟩ := execEncode_cases a m s
  · exact hm
  all_goals rw [hx] at h
  · cases error_eq_of_answers_raise h
  · exact absurd h (not_answers_fault _ _)
  · exact absurd h (not_answers_complete_failed _ _)

/-- The bytes the checksum covers, with the LEN field written from the request's length (R66, R74). -/
theorem frameBody_inputBytes (a m : Word) (s : State) :
    frameBody a (s.inputBytes m.toNat) =
      [0x3A#8] ++ hexN a.toNat 8 ++ hexN m.toNat 4 ++ s.inputBytes m.toNat := by
  simp [frameBody, colon]

end Sys2Proof.Machine
end

section
/-! PROOFS. The statements of the family 41_frame_encode.md. -/

namespace Sys2Proof.Proofs

open Sys2Proof.Machine

/-- Settles O23: the equation of the failure, what ENCODE can answer for a payload that fits, and the layout of the
longest frame. -/
theorem encodePayloadTooLarge : Obligations.EncodePayloadTooLarge := by
  unfold Obligations.EncodePayloadTooLarge
  intro s a m
  refine ⟨fun hm => ?_, fun hm t h => ?_, fun hs hm => ?_⟩
  · rw [exec_encode_of_tooLarge a hm, raise_eq]
    rfl
  · exact Nat.not_lt.mpr hm (maxPayload_lt_of_answers_payloadTooLarge h)
  · obtain ⟨t, q, hans, holen, -, -, hlen, -⟩ := encodeFrameLayout s a m hs hm.le
    have hffff : ∀ k < 4, hexdig (65535 / 16 ^ (3 - k) % 16) = 0x66#8 := by decide
    refine ⟨t, q, hans, by rw [holen, hm], fun k hk => ?_⟩
    rw [hlen k hk, hm, hffff k hk]

/-- Settles O22: ENCODE's equation with the table built, its covered bytes written out. -/
theorem encodeEffect : Obligations.EncodeEffect := by
  unfold Obligations.EncodeEffect
  rintro s a m _ hs hm rfl
  rw [← frameBody_inputBytes]
  exact exec_encode_of_built a hs hm

/-- Settles O24: the equations of the two failures; a failed operation has no output and keeps the rest. -/
theorem encodeNotInitialized : Obligations.EncodeNotInitialized := by
  unfold Obligations.EncodeNotInitialized
  intro s a m hv
  refine ⟨fun hm => ?_, fun hm => ?_⟩
  · exact ⟨_, ⟨exec_encode_of_notBuilt a hv hm, raise_response s _⟩, raise_validOutput s _, raise_tvalid s _,
      raise_table s _, raise_ib s _, raise_request s _⟩
  · exact ⟨_, ⟨exec_encode_of_tooLarge a hm, raise_response s _⟩, raise_validOutput s _⟩

end Sys2Proof.Proofs
end

section
/-! SUPPORT. Rules the decoder family uses: each check of DECODE as an equation for the sequences that fail or pass it,
and DECODE as an equation for each outcome of its checks. -/

namespace Sys2Proof.Machine

section
variable {upper : Bool} {F : List Byte}

/-- The first check (R126). -/
theorem checkStructure_of_noStart (h : F[0]? ≠ some colon) : checkStructure upper F = .error .invalidStart := by
  rw [checkStructure, if_pos h]

/-- The second check (R127). -/
theorem checkStructure_of_noTerminator (hstart : F[0]? = some colon)
    (h : F.length < 2 ∨ F[F.length - 2]? ≠ some cr ∨ F[F.length - 1]? ≠ some lf) :
    checkStructure upper F = .error .invalidTerminator := by
  rw [checkStructure, if_neg (not_not.mpr hstart), if_pos h]

/-- The third check (R128). -/
theorem checkStructure_of_short (hstart : F[0]? = some colon) (htwo : 2 ≤ F.length)
    (hcr : F[F.length - 2]? = some cr) (hlf : F[F.length - 1]? = some lf) (h : F.length < Config.minFrame) :
    checkStructure upper F = .error .truncated := by
  rw [checkStructure, if_neg (not_not.mpr hstart), if_neg (by simp [hcr, hlf, Nat.not_lt.mpr htwo]), if_pos h]

/-- The checksum field without a value (R129). -/
theorem checkStructure_of_framed_none (hF : Framed F) (h : parseHex upper F (crcOffset F) 8 = none) :
    checkStructure upper F = .error .malformedField := by
  rw [checkStructure_framed hF, h]

/-- The checksum field with a value (R129). -/
theorem checkStructure_of_framed_some {c : Nat} (hF : Framed F) (h : parseHex upper F (crcOffset F) 8 = some c) :
    checkStructure upper F = .ok (BitVec.ofNat 32 c) := by
  rw [checkStructure_framed hF, h]

/-- A header field without a value, whatever LEN would have said (R133 to R135). -/
theorem extractFields_of_none (h : parseHex upper F 1 8 = none ∨ parseHex upper F 9 4 = none) :
    extractFields upper F = .error .malformedField := by
  obtain h | h := h
  · rw [extractFields, h]
  · cases ha : parseHex upper F 1 8 <;> simp only [extractFields, ha, h]

/-- A length that disagrees with the bytes present (R136). -/
theorem extractFields_of_disagrees {a L : Nat} (ha : parseHex upper F 1 8 = some a)
    (hL : parseHex upper F 9 4 = some L) (h : 13 + L ≠ crcOffset F) :
    extractFields upper F = .error .truncated := by
  simp only [extractFields, ha, hL, if_pos h]

/-- A header whose length agrees with the bytes present (R136, R137). -/
theorem extractFields_of_agrees {a L : Nat} (ha : parseHex upper F 1 8 = some a)
    (hL : parseHex upper F 9 4 = some L) (h : 13 + L = crcOffset F) :
    extractFields upper F = .ok { addr := BitVec.ofNat 32 a, len := L, payload := (F.drop 13).take L } := by
  simp only [extractFields, ha, hL, if_neg (not_not.mpr h)]

end

/-- The decoder takes upper case (R8). -/
theorem params_upperHex : Config.params.upperHex = true := rfl

/-- The bytes of the input by offset. -/
theorem inputBytes_getElem?_of_lt {s : State} {m k : Nat} (h : k < m) :
    (s.inputBytes m)[k]? = some (s.inputByte k) := by
  rw [inputBytes_getElem?, if_pos h]

/-- An input that passes the first three checks has at least 23 bytes (R128). -/
theorem minFrame_le_of_framed {s : State} {m : Nat} (h : Framed (s.inputBytes m)) : 23 ≤ m := by
  simpa [Config.minFrame] using h.long

@[simp] theorem crcOffset_inputBytes (s : State) (m : Nat) : crcOffset (s.inputBytes m) = m - 10 := by
  simp [crcOffset]

/-- A field inside the input has no value exactly where one of its bytes is no digit (R72). -/
theorem parseHex_inputBytes_eq_none_iff {upper : Bool} {s : State} {m off N : Nat} (h : off + N ≤ m) :
    parseHex upper (s.inputBytes m) off N = none ↔ ∃ k < N, hexval upper (s.inputByte (off + k)) = none := by
  rw [parseHex, if_pos (by simpa using h), parseDigits_none]
  constructor
  · rintro ⟨b, hb, hnone⟩
    obtain ⟨k, hk, hbyte⟩ := mem_slice_iff.mp hb
    rw [inputBytes_getElem?_of_lt (by omega)] at hbyte
    cases hbyte
    exact ⟨k, hk, hnone⟩
  · rintro ⟨k, hk, hnone⟩
    exact ⟨_, mem_slice_iff.mpr ⟨k, hk, inputBytes_getElem?_of_lt (by omega)⟩, hnone⟩

/-- The value of a field of eight digits fits a word (R10, R72). -/
theorem toNat_ofNat_of_parseHex {upper : Bool} {F : List Byte} {off c : Nat} (h : parseHex upper F off 8 = some c) :
    (BitVec.ofNat 32 c).toNat = c := by
  have hlt : c < 16 ^ 8 := parseHex_lt h
  exact Nat.mod_eq_of_lt hlt

/-- An operation that raises an error changes nothing but the consumed request, the response and `OB` (R30, R175). -/
theorem exists_ob_of_raise {o : Host.Outcome State Fault Refusal} {s : State} {e : ErrorCode}
    (h : o = .next (s.raise e)) :
    ∃ b, o = .next { s with ob := b, request := none, response := some (.failed e) } :=
  ⟨_, h.trans (congrArg _ (raise_eq s e))⟩

section
variable {s : State} {n : Word} {F : List Byte} (hF : F = s.inputBytes n.toNat)
include hF

/-- The checksum field of the input (R49). -/
theorem crcOffset_eq : crcOffset F = n.toNat - 10 := by
  rw [hF, crcOffset_inputBytes]

/-- DECODE of a sequence that fails a structural check, whatever `TVALID` is (R126 to R129). -/
theorem exec_decode_of_structure_error {e : ErrorCode} (h : checkStructure true F = .error e) :
    exec (.decode n) s = .next (s.raise e) := by
  subst hF
  simp [exec, execDecode, decodeOp, params_upperHex, h]

/-- DECODE without a table, of a sequence that passes the structural checks (R130). -/
theorem exec_decode_of_notBuilt {c : Word} (hv : s.tvalid = false) (hc : checkStructure true F = .ok c) :
    exec (.decode n) s = .next (s.raise .notInitialized) := by
  subst hF
  simp [exec, execDecode, decodeOp, params_upperHex, hc, requestTable_notBuilt hv]

/-- The hard gate: nothing is asked of the header (R131, R132). -/
theorem exec_decode_of_mismatch {c : Word} (hs : s.Built) (hc : checkStructure true F = .ok c)
    (hne : crc32 (F.take (crcOffset F)) ≠ c) : exec (.decode n) s = .next (s.raise .checksumMismatch) := by
  subst hF
  simp only [exec, execDecode, decodeOp, params_upperHex, hc, requestTable_built _ hs, crc32With_built]
  exact if_pos hne

/-- DECODE of a verified sequence whose header does not hold (R133 to R136). -/
theorem exec_decode_of_fields_error {e : ErrorCode} (hs : s.Built)
    (hc : checkStructure true F = .ok (crc32 (F.take (crcOffset F)))) (he : extractFields true F = .error e) :
    exec (.decode n) s = .next (s.raise e) := by
  subst hF
  simp [exec, execDecode, decodeOp, params_upperHex, hc, requestTable_built _ hs,
    crc32With_built, he]

/-- DECODE of a verified sequence whose header holds (R137, R138). -/
theorem exec_decode_of_fields_ok {f : Fields} (hs : s.Built)
    (hc : checkStructure true F = .ok (crc32 (F.take (crcOffset F)))) (hf : extractFields true F = .ok f) :
    exec (.decode n) s = .next { s with
      request := none
      ob := Memory.ofBytes 0 f.payload
      response := some (.done { crc := crc32 (F.take (crcOffset F)), addr := f.addr, len := BitVec.ofNat 16 f.len,
                                olen := BitVec.ofNat 32 f.len }) } := by
  have hx : exec (.decode n) s = .next ((s.storeOutput f.payload).complete
      { crc := crc32 (F.take (crcOffset F)), addr := f.addr, len := BitVec.ofNat 16 f.len,
        olen := BitVec.ofNat 32 f.len }) := by
    subst hF
    simp [exec, execDecode, decodeOp, params_upperHex, hc, requestTable_built _ hs,
      crc32With_built, hf]
  have hfit : f.payload.length ≤ (BitVec.ofNat 32 f.len).toNat := by
    have hlt := extractFields_len_lt hf
    rw [extractFields_payload_length hf, BitVec.toNat_ofNat]
    omega
  exact hx.trans (congrArg _ (storeOutput_complete_eq hfit))

/-- A claimed checksum equal to the recomputed one passes the structural checks with that value (R129, R131). -/
theorem checkStructure_of_verified (hframed : Framed F)
    (h : parseHex true F (n.toNat - 10) 8 = some (crc32 (F.take (n.toNat - 10))).toNat) :
    checkStructure true F = .ok (crc32 (F.take (crcOffset F))) := by
  rw [← crcOffset_eq hF] at h
  rw [checkStructure_of_framed_some hframed h, BitVec.ofNat_toNat, BitVec.setWidth_eq]

end

end Sys2Proof.Machine
end

section
/-! PROOFS. The statements of the family 42_frame_decode.md. -/

namespace Sys2Proof.Proofs

open Sys2Proof.Machine

/-- Settles O29: a field with a byte that is no digit has no value, and the structural checks come before the table. -/
theorem decodeMalformedChecksumField : Obligations.DecodeMalformedChecksumField := by
  unfold Obligations.DecodeMalformedChecksumField
  intro s n hframed hdigit
  have hlong := minFrame_le_of_framed hframed
  have hnone := (parseHex_inputBytes_eq_none_iff (show n.toNat - 10 + 8 ≤ n.toNat by omega)).mpr hdigit
  rw [← crcOffset_inputBytes s] at hnone
  exact exists_ob_of_raise (exec_decode_of_structure_error rfl (checkStructure_of_framed_none hframed hnone))

/-- Settles O30: a field of eight digits has a value, and the table is asked for next. -/
theorem decodeNotInitialized : Obligations.DecodeNotInitialized := by
  unfold Obligations.DecodeNotInitialized
  intro s n hv hframed hdigits
  have hlong := minFrame_le_of_framed hframed
  have hsome : parseHex true (s.inputBytes n.toNat) (n.toNat - 10) 8 ≠ none := by
    rw [Ne, parseHex_inputBytes_eq_none_iff (by omega)]
    rintro ⟨k, hk, hnone⟩
    simpa [hnone] using hdigits k hk
  obtain ⟨c, hc⟩ := Option.ne_none_iff_exists'.mp hsome
  rw [← crcOffset_inputBytes s] at hc
  exact exists_ob_of_raise (exec_decode_of_notBuilt rfl hv (checkStructure_of_framed_some hframed hc))

/-- Settles O31: two different values of eight digits are different words, and the checksums are compared before the
header is read. -/
theorem decodeChecksumMismatch : Obligations.DecodeChecksumMismatch := by
  unfold Obligations.DecodeChecksumMismatch
  intro s n F c hs hF hframed hc hne
  rw [← crcOffset_eq hF] at hc hne
  refine exists_ob_of_raise
    (exec_decode_of_mismatch hF hs (checkStructure_of_framed_some hframed hc) fun heq => hne ?_)
  rw [heq, toNat_ofNat_of_parseHex hc]

/-- Settles O32: bytes 1 to 8 are those of ADDR and bytes 9 to 12 those of LEN, and a field with a byte that is no digit
has no value. -/
theorem decodeMalformedHeader : Obligations.DecodeMalformedHeader := by
  unfold Obligations.DecodeMalformedHeader
  rintro s n F hs hF hframed hcrc ⟨k, hk1, hk13, hdigit⟩
  have hlong : 23 ≤ n.toNat := minFrame_le_of_framed (hF ▸ hframed)
  have hfield : parseHex true F 1 8 = none ∨ parseHex true F 9 4 = none := by
    rw [hF, parseHex_inputBytes_eq_none_iff (by omega), parseHex_inputBytes_eq_none_iff (by omega)]
    obtain haddr | hlen : k < 9 ∨ 9 ≤ k := Nat.lt_or_ge k 9
    · exact .inl ⟨k - 1, by omega, by rwa [Nat.add_sub_cancel' hk1]⟩
    · exact .inr ⟨k - 9, by omega, by rwa [Nat.add_sub_cancel' hlen]⟩
  exact exists_ob_of_raise (exec_decode_of_fields_error hF hs (checkStructure_of_verified hF hframed hcrc)
    (extractFields_of_none hfield))

/-- Settles O33: the length check is an equality, so it fails in either direction. -/
theorem decodeTruncatedLength : Obligations.DecodeTruncatedLength := by
  unfold Obligations.DecodeTruncatedLength
  intro s n F a L hs hF hframed hcrc ha hL hdisagrees
  rw [← crcOffset_eq hF] at hdisagrees
  exact exists_ob_of_raise (exec_decode_of_fields_error hF hs (checkStructure_of_verified hF hframed hcrc)
    (extractFields_of_disagrees ha hL hdisagrees))

/-- Settles O34: an accepted frame passes every check, with the values of its fields. -/
theorem decodeAcceptedFrame : Obligations.DecodeAcceptedFrame := by
  unfold Obligations.DecodeAcceptedFrame
  rintro s n F c a L hs hF ⟨hframed, hclaimed, hverified, ha, hL, hagrees⟩
  have hc := checkStructure_of_framed_some hframed hclaimed
  rw [hverified] at hc ⊢
  exact exec_decode_of_fields_ok hF hs hc (extractFields_of_agrees ha hL hagrees)

/-- Settles O26: an input of no bytes has no first byte, and the marker is the first check. -/
theorem decodeInvalidStart : Obligations.DecodeInvalidStart := by
  unfold Obligations.DecodeInvalidStart
  intro s n h
  have hstart : (s.inputBytes n.toNat)[0]? ≠ some colon := by
    rw [inputBytes_getElem?]
    obtain rfl | hbyte := h
    · simp
    · split <;> simp [colon, hbyte]
  exact exists_ob_of_raise (exec_decode_of_structure_error rfl (checkStructure_of_noStart hstart))

/-- Settles O27: with the marker in place the last two bytes are the next check. -/
theorem decodeInvalidTerminator : Obligations.DecodeInvalidTerminator := by
  unfold Obligations.DecodeInvalidTerminator
  intro s n hn hstart hend
  refine exists_ob_of_raise (exec_decode_of_structure_error rfl (checkStructure_of_noTerminator ?_ ?_))
  · rw [inputBytes_getElem?_of_lt hn, hstart, colon]
  · rw [inputBytes_length, inputBytes_getElem?_of_lt (by omega), inputBytes_getElem?_of_lt (by omega)]
    simpa [cr, lf] using hend

/-- Settles O28: with marker and terminator in place the length is the next check. -/
theorem decodeTruncatedShort : Obligations.DecodeTruncatedShort := by
  unfold Obligations.DecodeTruncatedShort
  intro s n htwo hshort hstart hcr hlf
  have hlen := inputBytes_length s n.toNat
  refine exists_ob_of_raise (exec_decode_of_structure_error rfl
    (checkStructure_of_short ?_ (htwo.trans_eq hlen.symm) ?_ ?_ (hlen.trans_lt hshort)))
  · rw [inputBytes_getElem?_of_lt (by omega), hstart, colon]
  · rw [hlen, inputBytes_getElem?_of_lt (by omega), hcr, cr]
  · rw [hlen, inputBytes_getElem?_of_lt (by omega), hlf, lf]

end Sys2Proof.Proofs
end

section
/-! SUPPORT. Rules the properties family uses: a written field reads back, a field read in lower case is written again as
it was, and so the frames of the encoder are the canonical ones. -/

namespace Sys2Proof.Machine

section
variable {upper : Bool} {F : List Byte} {c : Byte} {v d N off : Nat}

/-- A lower-case digit is a digit, and it is the one its value is written with (R69, R70). -/
theorem hexval_of_isLowerDigit (h : isLowerDigit c = true) :
    ∃ d, hexval upper c = some d ∧ d < 16 ∧ hexdig d = c := by
  simp only [isLowerDigit, Bool.or_eq_true, decide_eq_true_eq] at h
  rw [hexval]
  obtain hdec | hlow := h
  · refine ⟨_, if_pos hdec, by omega, ?_⟩
    rw [hexdig, if_pos (by omega), Nat.add_sub_cancel' hdec.1, BitVec.ofNat_toNat, BitVec.setWidth_eq]
  · refine ⟨_, by rw [if_neg (by omega), if_pos hlow], by omega, ?_⟩
    rw [hexdig, if_neg (by omega), Nat.add_sub_cancel, Nat.add_sub_cancel' hlow.1, BitVec.ofNat_toNat,
      BitVec.setWidth_eq]

/-- The loop of R72 with one more digit at the end. -/
theorem parseDigits_concat {ds : List Byte} (hds : parseDigits upper 0 ds = some v) (hc : hexval upper c = some d) :
    parseDigits upper 0 (ds ++ [c]) = some (v * 16 + d) := by
  rw [parseDigits_append, hds, Option.bind_some, parseDigits, hc]
  exact congrArg some (shift_or_digit (hexval_lt hc))

/-- The digits written for a value read back to it (R71, R72). -/
theorem parseDigits_hexN (upper : Bool) (hv : v < 16 ^ N) : parseDigits upper 0 (hexN v N) = some v := by
  induction N generalizing v with
  | zero =>
    obtain rfl : v = 0 := by simpa using hv
    rfl
  | succ N ih =>
    have hdiv : v / 16 < 16 ^ N := Nat.div_lt_of_lt_mul (by rwa [Nat.pow_succ, Nat.mul_comm] at hv)
    rw [hexN_succ, parseDigits_concat (ih hdiv) (hexval_hexdig upper (Nat.mod_lt v (by decide))), Nat.div_add_mod']

/-- The digits of a value read in lower case are the digits written for it (R71, R72). -/
theorem hexN_of_parseDigits {ds : List Byte} (hlow : ∀ b ∈ ds, isLowerDigit b = true)
    (hv : parseDigits upper 0 ds = some v) : hexN v ds.length = ds := by
  induction ds using List.reverseRecOn generalizing v with
  | nil => rfl
  | append_singleton ds b ih =>
    obtain ⟨d, hd, hlt, hdig⟩ := hexval_of_isLowerDigit (upper := upper) (hlow b (by simp))
    have hsome : parseDigits upper 0 ds ≠ none := by
      intro hnone
      rw [parseDigits_append, hnone] at hv
      cases hv
    obtain ⟨w, hw⟩ := Option.ne_none_iff_exists'.mp hsome
    rw [parseDigits_concat hw hd] at hv
    obtain rfl : w * 16 + d = v := Option.some.inj hv
    rw [List.length_append, List.length_singleton, hexN_succ, show (w * 16 + d) / 16 = w by omega,
      show (w * 16 + d) % 16 = d by omega, ih (fun b hb => hlow b (by simp [hb])) hw, hdig]

/-- A field that holds the digits written for a value has that value (R71, R72). -/
theorem parseHex_of_slice (upper : Bool) (hv : v < 16 ^ N) (hF : (F.drop off).take N = hexN v N)
    (hin : off + N ≤ F.length) : parseHex upper F off N = some v := by
  rw [parseHex, if_pos hin, hF, parseDigits_hexN upper hv]

/-- A field in lower case holds the digits written for its value (R71, R72). -/
theorem slice_of_parseHex (hv : parseHex upper F off N = some v)
    (hlow : ∀ k < N, (F[off + k]?.map isLowerDigit) = some true) : (F.drop off).take N = hexN v N := by
  have hin := parseHex_inside hv
  rw [parseHex, if_pos hin] at hv
  have hdigits : ∀ b ∈ (F.drop off).take N, isLowerDigit b = true := fun b hb => by
    obtain ⟨k, hk, hbyte⟩ := mem_slice_iff.mp hb
    simpa [hbyte] using hlow k hk
  rw [← hexN_of_parseDigits hdigits hv, List.length_take, List.length_drop, Nat.min_eq_left (by omega)]

end

/-! ### The frames of the encoder are the canonical ones -/

section
variable (a c : Word) (P : List Byte)

@[simp] theorem encodedFrame_length : (encodedFrame a P).length = 23 + P.length := frameWith_length a P _

@[simp] theorem crcOffset_encodedFrame : crcOffset (encodedFrame a P) = 13 + P.length := by
  rw [crcOffset, encodedFrame_length]
  omega

/-- ADDR as a slice of the frame (R66). -/
theorem frameWith_slice_addr : ((frameWith a P c).drop 1).take 8 = hexN a.toNat 8 := by
  simp [frameWith, frameBody]

/-- LEN as a slice of the frame (R66). -/
theorem frameWith_slice_len : ((frameWith a P c).drop 9).take 4 = hexN P.length 4 := by
  simp [frameWith, frameBody]

/-- PAYLOAD as a slice of the frame (R66). -/
theorem frameWith_slice_payload : ((frameWith a P c).drop 13).take P.length = P := by
  simp [frameWith, frameBody, List.drop_append, List.drop_eq_nil_of_le]

/-- CRC as a slice of the frame (R66). -/
theorem frameWith_slice_crc : ((frameWith a P c).drop (13 + P.length)).take 8 = hexN c.toNat 8 := by
  simp [frameWith]

/-- The covered bytes as a slice of the frame (R74). -/
theorem frameWith_take_body : (frameWith a P c).take (13 + P.length) = frameBody a P := by
  simp [frameWith]

end

/-- The frame of a message that fits is accepted under either case rule, with the values it was made from (R76). -/
theorem acceptedAs_encodedFrame (upper : Bool) (a : Word) {P : List Byte} (hP : P.length ≤ 65535) :
    AcceptedAs upper (encodedFrame a P) (crc32 (frameBody a P)).toNat a.toNat P.length := by
  have hlen := encodedFrame_length a P
  have hco := crcOffset_encodedFrame a P
  refine ⟨⟨by simp [Config.minFrame], ?_, ?_, ?_⟩, ?_, ?_, ?_, ?_, hco.symm⟩
  · exact (frameWith_getElem?_body a _ P (by omega)).trans (frameBody_getElem?_start a P)
  · exact frameWith_getElem?_terminator a _ P (k := 0) (by omega)
  · exact frameWith_getElem?_terminator a _ P (k := 1) (by omega)
  · rw [hco]
    exact parseHex_of_slice upper (BitVec.isLt _) (frameWith_slice_crc a _ P) (by omega)
  · rw [BitVec.ofNat_toNat, BitVec.setWidth_eq, hco, encodedFrame, frameWith_take_body]
  · exact parseHex_of_slice upper a.isLt (frameWith_slice_addr a _ P) (by omega)
  · exact parseHex_of_slice upper (Nat.lt_succ_of_le hP) (frameWith_slice_len a _ P) (by omega)

section
variable {upper : Bool} {F : List Byte} {c a L : Nat}

/-- The LEN field and the length of an accepted frame (R76). -/
theorem AcceptedAs.length_eq (h : AcceptedAs upper F c a L) : F.length = 23 + L := by
  have hlong := h.framed.long
  have hagrees := h.agrees
  simp only [Config.minFrame] at hlong
  rw [crcOffset] at hagrees
  omega

/-- The payload of an accepted frame has the length its LEN field says (R76). -/
theorem AcceptedAs.payload_length (h : AcceptedAs upper F c a L) : ((F.drop 13).take L).length = L := by
  rw [List.length_take, List.length_drop, h.length_eq]
  omega

/-- The covered bytes of a canonical frame are those the encoder would write (R74, R157). -/
theorem AcceptedAs.take_eq_frameBody (h : AcceptedAs upper F c a L) (hlow : LowerFields F) :
    F.take (crcOffset F) = frameBody (BitVec.ofNat 32 a) ((F.drop 13).take L) := by
  have hstart : F.take 1 = [colon] := by
    rw [List.take_one, List.head?_eq_getElem?, h.framed.start]
    rfl
  have haddr : (F.drop 1).take 8 = hexN a 8 :=
    slice_of_parseHex h.address fun k hk => hlow.1 (1 + k) (by omega) (by omega)
  have hlen : (F.drop 9).take 4 = hexN L 4 :=
    slice_of_parseHex h.length fun k hk => hlow.1 (9 + k) (by omega) (by omega)
  calc F.take (crcOffset F)
      = F.take 1 ++ (F.drop 1).take 8 ++ (F.drop 9).take 4 ++ (F.drop 13).take L := by
        rw [← List.take_add, ← List.take_add, ← List.take_add, h.agrees]
    _ = frameBody (BitVec.ofNat 32 a) ((F.drop 13).take L) := by
        rw [hstart, haddr, hlen, frameBody, h.payload_length, toNat_ofNat_of_parseHex h.address]
        simp

/-- The terminator as the last two bytes of a framed sequence (R66). -/
theorem Framed.drop_eq_terminator (h : Framed F) : F.drop (F.length - 2) = [cr, lf] := by
  have hlong : 23 ≤ F.length := h.long
  refine List.ext_getElem? fun k => ?_
  rw [List.getElem?_drop]
  match k with
  | 0 => exact h.beforeLast
  | 1 => rw [show F.length - 2 + 1 = F.length - 1 by omega, h.last]; rfl
  | k + 2 => rw [List.getElem?_eq_none (by omega)]; rfl

/-- A canonical frame is the encoder's frame of the message it carries (R157). -/
theorem AcceptedAs.eq_encodedFrame (h : AcceptedAs upper F c a L) (hlow : LowerFields F) :
    F = encodedFrame (BitVec.ofNat 32 a) ((F.drop 13).take L) := by
  have hlen := h.length_eq
  have hcrc : (F.drop (crcOffset F)).take 8 = hexN c 8 := slice_of_parseHex h.claimed hlow.2
  have hend : crcOffset F + 8 = F.length - 2 := by
    rw [← h.agrees]
    omega
  calc F = F.take (crcOffset F) ++ (F.drop (crcOffset F)).take 8 ++ F.drop (F.length - 2) := by
        rw [← List.take_add, hend, List.take_append_drop]
    _ = encodedFrame (BitVec.ofNat 32 a) ((F.drop 13).take L) := by
        rw [hcrc, h.framed.drop_eq_terminator, h.take_eq_frameBody hlow, encodedFrame, frameWith, ← h.take_eq_frameBody hlow, ← h.verified,
          toNat_ofNat_of_parseHex h.claimed]

end

/-- Output bytes that read as the input of a state are that input (R42, R43). -/
theorem eq_inputBytes_of_read {u : State} {bs : List Byte} {m : Nat} (hlen : bs.length = m)
    (h : ∀ k < m, (Memory.ofBytes 0 bs).read k = some (u.inputByte k)) : bs = u.inputBytes m := by
  refine List.ext_getElem? fun k => ?_
  rw [inputBytes_getElem?]
  split
  · rw [← h k ‹_›, read_ofBytes_zero]
  · exact List.getElem?_eq_none (by omega)

/-- An operation that ended by raising an error answers no results. -/
theorem not_answers_raise_done {s t : State} (e : ErrorCode) (q : Result) :
    ¬ Answers (.next (s.raise e)) t (.done q) := by
  rintro ⟨⟨⟩, hr⟩
  cases hr

/-- With the table built DECODE succeeds on accepted frames only (R76). -/
theorem acceptedAs_of_answers_done {s t : State} {n : Word} {q : Result} (hs : s.Built)
    (h : Answers (exec (.decode n) s) t (.done q)) : ∃ c a L, AcceptedAs true (s.inputBytes n.toNat) c a L := by
  change Answers (execDecode n s) t _ at h
  obtain ⟨e, -, hx⟩ | ⟨c, hc, ⟨-, hx⟩ | ⟨-, -, hx⟩ | ⟨v, -, hv, ⟨-, hx⟩ | ⟨hcrc, ⟨e, -, hx⟩ | ⟨f, hf, -⟩⟩⟩⟩ :=
    execDecode_cases n s
  · exact absurd (hx ▸ h) (not_answers_raise_done _ _)
  · exact absurd (hx ▸ h) (not_answers_raise_done _ _)
  · exact absurd (hx ▸ h) (not_answers_fault _ _)
  · exact absurd (hx ▸ h) (not_answers_raise_done _ _)
  · exact absurd (hx ▸ h) (not_answers_raise_done _ _)
  · cases hs.2.symm.trans hv
    obtain ⟨hframed, hclaimed⟩ := checkStructure_ok hc
    obtain ⟨a, ha, -, hL, hagrees, -⟩ := extractFields_ok hf
    refine ⟨c.toNat, a, f.len, hframed, hclaimed, ?_, ha, hL, hagrees⟩
    rw [BitVec.ofNat_toNat, BitVec.setWidth_eq, ← hcrc, crc32With_built]

end Sys2Proof.Machine
end

section
/-! SUPPORT. Rules of the checksum the properties family uses: the per-byte update is eight bit-serial steps, each of
which can be undone, so that one changed byte changes the checksum. -/

namespace Sys2Proof.Machine

/-- The low bit as the test of R91 reads it. -/
theorem and_one_eq_one_iff (x : Word) : x &&& 1#32 = 1#32 ↔ x.getLsbD 0 = true := by
  rw [BitVec.and_one_eq_setWidth_ofBool_getLsbD]
  cases x.getLsbD 0 <;> decide

/-- A bit-serial step puts the bit it shifts out on top, because `poly` has its top bit set (R4, R102). -/
theorem serialStep_msb (x : Word) : (serialStep x).getLsbD 31 = x.getLsbD 0 := by
  unfold serialStep
  cases x.getLsbD 0 <;> simp [poly]

/-- No bit-serial step loses anything: the top bit of the result says which way the step went. -/
theorem serialStep_injective : Function.Injective serialStep := by
  intro x y h
  have hlow : x.getLsbD 0 = y.getLsbD 0 := by rw [← serialStep_msb, ← serialStep_msb, h]
  have hhigh : x >>> 1 = y >>> 1 := by
    unfold serialStep at h
    rw [hlow] at h
    split at h
    · exact (BitVec.xor_left_inj poly).mp h
    · exact h
  refine BitVec.eq_of_getLsbD_eq fun i hi => ?_
  cases i with
  | zero => exact hlow
  | succ i => simpa [Nat.add_comm] using congrArg (·.getLsbD i) hhigh

/-- Any number of bit-serial steps can be undone. -/
theorem serialSteps_injective (n : Nat) : Function.Injective (serialSteps n) := by
  induction n with
  | zero => exact fun x y h => h
  | succ n ih => exact ih.comp serialStep_injective

/-- A part of the accumulator with a clear low bit only moves down in a step. -/
theorem serialStep_xor {x : Word} (y : Word) (h : x.getLsbD 0 = false) :
    serialStep (x ^^^ y) = x >>> 1 ^^^ serialStep y := by
  simp only [serialStep, BitVec.getLsbD_xor, h, Bool.false_bne, BitVec.ushiftRight_xor_distrib]
  split <;> simp [BitVec.xor_assoc]

/-- A part of the accumulator whose `n` low bits are clear only moves down in `n` steps. -/
theorem serialSteps_xor {n : Nat} {x : Word} (y : Word) (h : ∀ i < n, x.getLsbD i = false) :
    serialSteps n (x ^^^ y) = x >>> n ^^^ serialSteps n y := by
  induction n generalizing x y with
  | zero => simp [serialSteps]
  | succ n ih =>
    have hshift : ∀ i < n, (x >>> 1).getLsbD i = false := fun i hi => by
      rw [BitVec.getLsbD_ushiftRight]
      exact h (1 + i) (by omega)
    rw [serialSteps, serialStep_xor y (h 0 (by omega)), ih _ hshift, ← BitVec.shiftRight_add, Nat.add_comm]
    rfl

/-- The loop of R91 keeps byte and accumulator apart; their exclusive OR goes through the bit-serial step. -/
theorem serialStep_tableStep (r : BuildRegs) :
    serialStep (r.byt.setWidth 32 ^^^ r.acc) = (tableStep r).byt.setWidth 32 ^^^ (tableStep r).acc := by
  have hbyt : (r.byt >>> 1).setWidth 32 = r.byt.setWidth 32 >>> 1 := BitVec.setWidth_ushiftRight (by decide)
  simp only [serialStep, tableStep, and_one_eq_one_iff, hbyt, BitVec.ushiftRight_xor_distrib]
  split <;> simp [BitVec.xor_assoc]

/-- The loop of R91 as bit-serial steps of the exclusive OR of its registers. -/
theorem serialSteps_tableSteps (n : Nat) (r : BuildRegs) :
    serialSteps n (r.byt.setWidth 32 ^^^ r.acc) = (tableSteps n r).byt.setWidth 32 ^^^ (tableSteps n r).acc := by
  induction n generalizing r with
  | zero => rfl
  | succ n ih => rw [serialSteps, serialStep_tableStep, ih, tableSteps]

/-- `BYT` only moves down in the loop of R91. -/
theorem tableSteps_byt (n : Nat) (r : BuildRegs) : (tableSteps n r).byt = r.byt >>> n := by
  induction n generalizing r with
  | zero => simp [tableSteps]
  | succ n ih => rw [tableSteps, ih, tableStep, ← BitVec.shiftRight_add, Nat.add_comm]

/-- A table entry is eight bit-serial steps from its index (R102 (a)). -/
theorem tableEntry_eq_serialSteps (i : Byte) : tableEntry i = serialSteps 8 (i.setWidth 32) := by
  have h := serialSteps_tableSteps 8 { byt := i, acc := 0#32 }
  have hbyt : i >>> 8 = 0#8 := BitVec.ushiftRight_eq_zero (Nat.le_refl 8)
  rw [tableSteps_byt, hbyt] at h
  simpa [tableEntry] using h.symm

/-- The per-byte update is eight bit-serial steps of the accumulator exclusive-or the byte (R102 (b)): its low byte is
the table index, and the bits above it only move down. -/
theorem crcStep_eq_serialSteps (acc : Word) (c : Byte) :
    crcStep builtTable acc c = serialSteps 8 (acc ^^^ c.setWidth 32) := by
  have hlow : ∀ i < 8, (acc ^^^ c.setWidth 32 ^^^ (crcIndex acc c).setWidth 32).getLsbD i = false := fun i hi => by
    simp [crcIndex, hi, show i < 32 by omega, Bool.xor_comm]
  have hhigh : (acc ^^^ c.setWidth 32 ^^^ (crcIndex acc c).setWidth 32) >>> 8 = acc >>> 8 := by
    refine BitVec.eq_of_getLsbD_eq fun i hi => ?_
    simp
  calc crcStep builtTable acc c
      = acc >>> 8 ^^^ serialSteps 8 ((crcIndex acc c).setWidth 32) := by
        rw [crcStep_built, tableEntry_eq_serialSteps]
    _ = serialSteps 8 (acc ^^^ c.setWidth 32 ^^^ (crcIndex acc c).setWidth 32 ^^^ (crcIndex acc c).setWidth 32) := by
        rw [serialSteps_xor _ hlow, hhigh]
    _ = serialSteps 8 (acc ^^^ c.setWidth 32) := by
        rw [BitVec.xor_assoc _ _ (BitVec.setWidth 32 (crcIndex acc c)), BitVec.xor_self, BitVec.xor_zero]

/-- One byte read into different accumulators leaves them different. -/
theorem crcStep_acc_injective (c : Byte) : Function.Injective fun acc => crcStep builtTable acc c := by
  intro acc acc' h
  simp only [crcStep_eq_serialSteps] at h
  exact (BitVec.xor_left_inj _).mp (serialSteps_injective 8 h)

/-- Different bytes read into one accumulator leave it different. -/
theorem crcStep_byte_injective (acc : Word) : Function.Injective (crcStep builtTable acc) := by
  intro c c' h
  rw [crcStep_eq_serialSteps, crcStep_eq_serialSteps] at h
  have hwide := (BitVec.xor_right_inj _).mp (serialSteps_injective 8 h)
  simpa using congrArg (BitVec.setWidth 8) hwide

/-- A byte sequence read into different accumulators leaves them different. -/
theorem crcFold_injective (bs : List Byte) : Function.Injective fun acc => bs.foldl (crcStep builtTable) acc := by
  induction bs with
  | nil => exact fun x y h => h
  | cons b bs ih => exact ih.comp (crcStep_acc_injective b)

/-- Sequences that differ in one byte at most have equal checksums only if that byte is equal (R153). -/
theorem crc32_set_inj {F : List Byte} {k : Nat} {b b' : Byte} (hk : k < F.length)
    (h : crc32 (F.set k b) = crc32 (F.set k b')) : b = b' := by
  rw [crc32, crc32, crc32With_inj, List.set_eq_take_append_cons_drop, List.set_eq_take_append_cons_drop, if_pos hk,
    if_pos hk, crcFold_append, crcFold_append, List.foldl_cons, List.foldl_cons] at h
  exact crcStep_byte_injective _ (crcFold_injective _ h)

/-- Inputs that agree except at one offset: one is the other with that byte replaced. -/
theorem inputBytes_eq_set {s s' : State} {m k : Nat} (h : ∀ j < m, j ≠ k → s'.inputByte j = s.inputByte j) :
    s'.inputBytes m = (s.inputBytes m).set k (s'.inputByte k) := by
  refine List.ext_getElem? fun j => ?_
  by_cases hj : j < m
  · obtain rfl | hne := eq_or_ne k j
    · rw [List.getElem?_set_self (by simpa), inputBytes_getElem?_of_lt hj]
    · rw [List.getElem?_set_ne hne, inputBytes_getElem?_of_lt hj, inputBytes_getElem?_of_lt hj, h j hj hne.symm]
  · rw [List.getElem?_eq_none (by simpa using hj), List.getElem?_eq_none (by simpa using hj)]

/-- Two inputs that agree except at one offset have equal checksums only if they agree there too (R153). -/
theorem inputByte_eq_of_crc32_eq {s s' : State} {m k : Nat} (hk : k < m)
    (hsame : ∀ j < m, j ≠ k → s'.inputByte j = s.inputByte j)
    (hcrc : crc32 (s'.inputBytes m) = crc32 (s.inputBytes m)) : s'.inputByte k = s.inputByte k := by
  have hself : s.inputBytes m = (s.inputBytes m).set k (s.inputByte k) := inputBytes_eq_set fun _ _ _ => rfl
  rw [inputBytes_eq_set hsame] at hcrc
  exact crc32_set_inj (by simpa using hk) (hcrc.trans (congrArg crc32 hself))

/-- The first `k` bytes of an input are the shorter input. -/
theorem inputBytes_take {s : State} {m k : Nat} (h : k ≤ m) : (s.inputBytes m).take k = s.inputBytes k := by
  rw [State.inputBytes, ← List.map_take, List.take_range, Nat.min_eq_left h, State.inputBytes]

section
variable {upper : Bool} {F : List Byte} {k off N : Nat} {b : Byte}

/-- A byte before a field does not change it (R72). -/
theorem parseHex_set_of_lt (h : k < off) : parseHex upper (F.set k b) off N = parseHex upper F off N := by
  rw [parseHex, parseHex, List.length_set, List.drop_set_of_lt h]

/-- Start marker, terminator and length do not depend on the bytes between (R76). -/
theorem Framed.set (h : Framed F) (hk : 1 ≤ k) (hend : k < F.length - 2) : Framed (F.set k b) := by
  obtain ⟨hlong, hstart, hcr, hlf⟩ := h
  refine ⟨by rwa [List.length_set], ?_, ?_, ?_⟩
  · rwa [List.getElem?_set_ne (by omega)]
  · rwa [List.length_set, List.getElem?_set_ne (by omega)]
  · rwa [List.length_set, List.getElem?_set_ne (by omega)]

end

end Sys2Proof.Machine
end

section
/-! SUPPORT. What an operation answers and leaves in `OB`, as a function of its operands and input bytes. -/

namespace Sys2Proof.Machine

/-- The operation ends in `o` with the response `r` and exactly `m` stated of `OB`. -/
def LeavesOutput (o : Host.Outcome State Fault Refusal) (m : Memory) (r : Response) : Prop :=
  ∃ t, Answers o t r ∧ t.ob = m

/-- A failure leaves nothing of `OB` stated, whatever the state was (R43, R175). -/
theorem leavesOutput_raise {o : Host.Outcome State Fault Refusal} {s : State} {e : ErrorCode}
    (h : o = .next (s.raise e)) : LeavesOutput o Memory.blank (.failed e) :=
  ⟨_, ⟨h, raise_response s e⟩, raise_ob s e⟩

/-- The state an operation ends in has the response and the output it is said to leave. -/
theorem LeavesOutput.of_eq_next {o : Host.Outcome State Fault Refusal} {t : State} {m : Memory} {r : Response}
    (h : LeavesOutput o m r) (ho : o = .next t) : t.response = some r ∧ t.ob = m := by
  obtain ⟨t', ⟨hx, hr⟩, hob⟩ := h
  cases hx.symm.trans ho
  exact ⟨hr, hob⟩

/-- DECODE of one input leaves the same in every built state. -/
theorem exec_decode_determined (n : Word) (F : List Byte) :
    ∃ m r, ∀ s : State, s.Built → F = s.inputBytes n.toNat → LeavesOutput (exec (.decode n) s) m r := by
  cases hc : checkStructure true F with
  | error e => exact ⟨_, _, fun s _ hF => leavesOutput_raise (exec_decode_of_structure_error hF hc)⟩
  | ok c =>
    by_cases hcrc : crc32 (F.take (crcOffset F)) = c
    · subst hcrc
      cases hf : extractFields true F with
      | error e => exact ⟨_, _, fun s hs hF => leavesOutput_raise (exec_decode_of_fields_error hF hs hc hf)⟩
      | ok f => exact ⟨_, _, fun s hs hF => ⟨_, ⟨exec_decode_of_fields_ok hF hs hc hf, rfl⟩, rfl⟩⟩
    · exact ⟨_, _, fun s hs hF => leavesOutput_raise (exec_decode_of_mismatch hF hs hc hcrc)⟩

/-- An operation on one input leaves the same in every built state (R159). -/
theorem exec_determined (i : Instr) (F : List Byte) : ∃ m r, ∀ s : State, s.Built →
    F = s.inputBytes (encodeRequest i).dlen.toNat → LeavesOutput (exec i s) m r := by
  cases i with
  | buildTable => exact ⟨_, _, fun s _ _ => ⟨_, ⟨exec_buildTable_eq s, rfl⟩, rfl⟩⟩
  | checksum d =>
    refine ⟨Memory.blank, .done { crc := crc32 F, addr := 0, len := 0, olen := 0 }, ?_⟩
    rintro s hs rfl
    exact ⟨_, ⟨exec_checksum_of_built d hs, rfl⟩, rfl⟩
  | encode a d =>
    obtain hlong | hfits := Nat.lt_or_ge Config.maxPayload d.toNat
    · exact ⟨_, _, fun s _ _ => leavesOutput_raise (exec_encode_of_tooLarge a hlong)⟩
    · refine ⟨Memory.ofBytes 0 (encodedFrame a F), .done
        { crc := crc32 (frameBody a F), addr := 0, len := 0, olen := BitVec.ofNat 32 (23 + d.toNat) }, ?_⟩
      rintro s hs rfl
      exact ⟨_, ⟨exec_encode_of_built a hs hfits, rfl⟩, rfl⟩
  | decode d => exact exec_decode_determined d F

end Sys2Proof.Machine
end

section
/-! PROOFS. The statements of the family 43_properties.md. -/

namespace Sys2Proof.Proofs

open Sys2Proof.Machine

/-- Settles O39: the output of ENCODE is the input of DECODE, and the encoder's frame is accepted with the values it was
made from. -/
theorem frameRoundTrip : Obligations.FrameRoundTrip := by
  unfold Obligations.FrameRoundTrip
  intro s t u a m q hs hm ⟨hx, hq⟩ hu hinput
  cases (exec_encode_of_built a hs hm).symm.trans hx
  cases hq
  have hP : (s.inputBytes m.toNat).length = m.toNat := inputBytes_length s _
  have holen : (BitVec.ofNat 32 (23 + m.toNat)).toNat = 23 + m.toNat := Nat.mod_eq_of_lt (by omega)
  have hF := eq_inputBytes_of_read (by rw [encodedFrame_length, hP, holen]) hinput
  have hacc := acceptedAs_encodedFrame true a (P := s.inputBytes m.toNat) (by omega)
  have hdec := decodeAcceptedFrame u _ _ _ _ _ hu hF hacc
  rw [encodedFrame, frameWith_slice_payload, hP] at hdec
  simpa using hdec

/-- Settles O40: a canonical frame is the encoder's frame of the message it carries, and that message is what DECODE
left. -/
theorem canonicalFrameReencodes : Obligations.CanonicalFrameReencodes := by
  unfold Obligations.CanonicalFrameReencodes
  intro s t u n q hs h hlow hu hinput
  obtain ⟨c, a, L, hacc⟩ := acceptedAs_of_answers_done hs h
  obtain ⟨hx, hq⟩ := h
  cases (decodeAcceptedFrame s n _ c a L hs rfl hacc).symm.trans hx
  cases hq
  have hL : L < 16 ^ 4 := parseHex_lt hacc.length
  have holen : (BitVec.ofNat 32 L).toNat = L := Nat.mod_eq_of_lt (by omega)
  have hn : n.toNat = 23 + L := (inputBytes_length s _).symm.trans hacc.length_eq
  have hP := eq_inputBytes_of_read (hacc.payload_length.trans holen.symm) hinput
  have henc := exec_encode_of_built (BitVec.ofNat 32 a) hu (m := BitVec.ofNat 32 L)
    (by rw [holen]; exact Nat.le_of_lt_succ hL)
  rw [← hP, ← hacc.eq_encodedFrame hlow, ← hacc.take_eq_frameBody hlow, ← hacc.verified, holen, ← hn] at henc
  refine ⟨_, ⟨henc, by simp⟩, fun k hk => ?_⟩
  rw [read_ofBytes_zero, inputBytes_getElem?_of_lt hk]

/-- Settles O41: the fields of a frame have one value each, and the payload is the slice LEN measures. -/
theorem encodeIsInjective : Obligations.EncodeIsInjective := by
  unfold Obligations.EncodeIsInjective
  intro a a' P P' hP hP' hF
  have hacc := acceptedAs_encodedFrame true a hP
  have hacc' := acceptedAs_encodedFrame true a' hP'
  rw [← hF] at hacc'
  have haddr : a.toNat = a'.toNat := Option.some.inj (hacc.address.symm.trans hacc'.address)
  have hlen : P.length = P'.length := Option.some.inj (hacc.length.symm.trans hacc'.length)
  refine ⟨BitVec.eq_of_toNat_eq haddr, ?_⟩
  calc P = ((encodedFrame a P).drop 13).take P.length := (frameWith_slice_payload a _ P).symm
    _ = ((encodedFrame a' P').drop 13).take P'.length := by rw [hF, hlen]
    _ = P' := frameWith_slice_payload a' _ P'

/-- Settles O42: the change leaves the frame's ends and its checksum field alone, so the claimed checksum is still that
of the old bytes; if the new bytes had it too, the changed byte would be the old one. -/
theorem singleByteChangeIsDetected : Obligations.SingleByteChangeIsDetected := by
  unfold Obligations.SingleByteChangeIsDetected
  rintro s s' n k hs hs' ⟨c, a, L, hframed, hclaimed, hverified, -, -, -⟩ hk hkn hbyte hsame
  have hF : s'.inputBytes n.toNat = (s.inputBytes n.toNat).set k (s'.inputByte k) := inputBytes_eq_set hsame
  rw [crcOffset_inputBytes] at hclaimed hverified
  refine decodeChecksumMismatch s' n _ c hs' rfl ?_ ?_ fun hc => hbyte ?_
  · rw [hF]
    exact hframed.set hk (by rw [inputBytes_length]; omega)
  · rw [hF, parseHex_set_of_lt hkn, hclaimed]
  · rw [inputBytes_take (Nat.sub_le _ _)] at hc hverified
    refine inputByte_eq_of_crc32_eq hkn (fun j hj => hsame j (by omega)) ?_
    rw [← hverified, hc, BitVec.ofNat_toNat, BitVec.setWidth_eq]

/-- Settles O43: both states hold the same input, and an operation on one input leaves the same in every built state. -/
theorem operationsAreIndependent : Obligations.OperationsAreIndependent := by
  unfold Obligations.OperationsAreIndependent
  intro i s s' t t' hs hs' hinput hx hx'
  have hF : s.inputBytes (encodeRequest i).dlen.toNat = s'.inputBytes (encodeRequest i).dlen.toNat :=
    List.map_congr_left fun k hk => hinput k (List.mem_range.mp hk)
  obtain ⟨m, r, h⟩ := exec_determined i (s.inputBytes (encodeRequest i).dlen.toNat)
  obtain ⟨hr, hob⟩ := (h s hs rfl).of_eq_next hx
  obtain ⟨hr', hob'⟩ := (h s' hs' hF).of_eq_next hx'
  exact ⟨hr.trans hr'.symm, hob.trans hob'.symm⟩

end Sys2Proof.Proofs
end

section
/-! SUPPORT. What an operation answers and leaves under any table policy, as a function of its operands, its input bytes
and the case rule: policies differ only in where NotInitialized is answered instead (R193). -/

namespace Sys2Proof.Machine

variable {s t : State} {o : Host.Outcome State Fault Refusal} {m : Memory} {r r' : Response} {init : Config.TableInit}

/-- An operation ends in one state with one response. -/
theorem Answers.unique {t' : State} (h : Answers o t r) (h' : Answers o t' r') : t = t' ∧ r = r' := by
  obtain ⟨hx, hr⟩ := h
  obtain ⟨hx', hr'⟩ := h'
  cases hx.symm.trans hx'
  exact ⟨rfl, Option.some.inj (hr.symm.trans hr')⟩

/-- The operation ends in `o` with the response `r`, exactly `m` stated of `OB`, and the table built where it
succeeded. -/
def EndsWith (o : Host.Outcome State Fault Refusal) (m : Memory) (r : Response) : Prop :=
  ∃ t, Answers o t r ∧ t.ob = m ∧ ∀ q, r = .done q → t.Built

/-- A failure leaves no output and says nothing of the table (R30, R175). -/
theorem endsWith_raise {e : ErrorCode} (h : o = .next (s.raise e)) : EndsWith o Memory.blank (.failed e) :=
  ⟨_, ⟨h, raise_response s e⟩, raise_ob s e, nofun⟩

/-- A success without output, from a state with the table built. -/
theorem endsWith_complete {q : Result} (ht : t.Built) (hq : q.olen = 0) (h : o = .next (t.complete q)) :
    EndsWith o Memory.blank (.done q) :=
  ⟨_, ⟨h, complete_response t q⟩, by simp [hq], fun _ _ => ht⟩

/-- A success with the output `bs`, from a state with the table built. -/
theorem endsWith_storeOutput_complete {q : Result} {bs : List Byte} (ht : t.Built)
    (h : o = .next ((t.storeOutput bs).complete q)) :
    EndsWith o ((Memory.ofBytes 0 bs).below q.olen.toNat) (.done q) :=
  ⟨_, ⟨h, complete_response _ q⟩, rfl, fun _ _ => ht⟩

/-- What the answer of an ending is. -/
theorem EndsWith.of_answers (h : EndsWith o m r) (ha : Answers o t r') :
    r = r' ∧ t.ob = m ∧ ∀ q, r = .done q → t.Built := by
  obtain ⟨u, hu, hob, hbuilt⟩ := h
  obtain ⟨rfl, hr⟩ := hu.unique ha
  exact ⟨hr, hob, hbuilt⟩

/-- The operation ends with `r` and `m`, unless it answers NotInitialized because the table is not built in `s` and the
policy `init` does not build it (R98, R193). -/
def EndsWithOnceBuilt (init : Config.TableInit) (s : State) (o : Host.Outcome State Fault Refusal) (m : Memory)
    (r : Response) : Prop :=
  EndsWith o m r ∨ (init ≠ .lazy ∧ s.tvalid = false ∧ o = .next (s.raise .notInitialized))

/-- An operation that asks for the table: it need be followed only on the two ways a state of the invariant answers
that. -/
theorem endsWithOnceBuilt_of_requestTable (hs : s.Inv)
    (hnot : s.requestTable init = .notBuilt → o = .next (s.raise .notInitialized))
    (hready : ∀ t, s.requestTable init = .ready builtTable t → t.Built → EndsWith o m r) :
    EndsWithOnceBuilt init s o m r := by
  obtain ⟨hlazy, hv, hreq⟩ | ⟨t, hreq, ht, -, -⟩ := requestTable_cases init hs
  · exact .inr ⟨hlazy, hv, hnot hreq⟩
  · exact .inl (hready t hreq ht)

/-- A success is the ending that all policies have in common. -/
theorem EndsWithOnceBuilt.of_done {q : Result} (h : EndsWithOnceBuilt init s o m r) (ha : Answers o t (.done q)) :
    r = .done q ∧ t.ob = m ∧ t.Built := by
  obtain h | ⟨-, -, ho⟩ := h
  · obtain ⟨hr, hob, hbuilt⟩ := h.of_answers ha
    exact ⟨hr, hob, hbuilt q hr⟩
  · exact absurd (ho ▸ ha) (not_answers_raise_done _ _)

/-- Under `lazy`, and with the table built, the common ending is the only one. -/
theorem EndsWithOnceBuilt.endsWith (h : EndsWithOnceBuilt init s o m r) (hready : init = .lazy ∨ s.Built) :
    EndsWith o m r := by
  obtain h | ⟨hlazy, hv, -⟩ := h
  · exact h
  · obtain hl | ⟨hbuilt, -⟩ := hready
    · exact absurd hl hlazy
    · exact absurd (hv.symm.trans hbuilt) Bool.false_ne_true

/-- The structural checks raise no NotInitialized (R126 to R129). -/
theorem failed_ne_of_checkStructure {upper : Bool} {F : List Byte} {e : ErrorCode}
    (h : checkStructure upper F = .error e) : Response.failed e ≠ .failed .notInitialized := by
  obtain rfl | rfl | rfl | rfl := checkStructure_error h <;> decide

/-- The checks of the header raise no NotInitialized (R133 to R136). -/
theorem failed_ne_of_extractFields {upper : Bool} {F : List Byte} {e : ErrorCode}
    (h : extractFields upper F = .error e) : Response.failed e ≠ .failed .notInitialized := by
  obtain rfl | rfl := extractFields_error h <;> decide

/-- The ending `r` with the output `m` that the operation `i` has on the input `F` in every state of the invariant and
under every table policy, unless NotInitialized is answered instead. -/
def CommonEnding (upper : Bool) (i : Instr) (F : List Byte) (m : Memory) (r : Response) : Prop :=
  r ≠ .failed .notInitialized ∧ ∀ (p : Config.Params) (s : State), p.upperHex = upper → s.Inv →
    F = s.inputBytes (encodeRequest i).dlen.toNat → EndsWithOnceBuilt p.tableInit s (execUnder p i s) m r

/-- What ENCODE answers for the address `a` and the payload `P` (R110). -/
def encodeResult (a : Word) (P : List Byte) : Result :=
  { crc := crc32 (frameBody a P), addr := 0, len := 0, olen := BitVec.ofNat 32 (Config.minFrame + P.length) }

/-- What DECODE answers for the verified sequence `F` with the fields `f` (R138). -/
def decodeResult (F : List Byte) (f : Fields) : Result :=
  { crc := crc32 (F.take (crcOffset F)), addr := f.addr, len := BitVec.ofNat 16 f.len, olen := BitVec.ofNat 32 f.len }

section
variable {p : Config.Params} {n c : Word} {F : List Byte} (hF : F = s.inputBytes n.toNat)
include hF

/-- DECODE under any policy, of a sequence that fails a structural check: the table is not asked for (R126 to R129). -/
theorem decodeOp_of_structure_error {e : ErrorCode} (hc : checkStructure p.upperHex F = .error e) :
    decodeOp p n s = .next (s.raise e) := by
  subst hF
  simp [decodeOp, hc]

/-- DECODE where the policy does not give the table (R130). -/
theorem decodeOp_of_notBuilt (hc : checkStructure p.upperHex F = .ok c)
    (hreq : s.requestTable p.tableInit = .notBuilt) : decodeOp p n s = .next (s.raise .notInitialized) := by
  subst hF
  simp [decodeOp, hc, hreq]

/-- DECODE with the table at hand, of a sequence whose checksum differs (R131). -/
theorem decodeOp_of_mismatch (hc : checkStructure p.upperHex F = .ok c)
    (hreq : s.requestTable p.tableInit = .ready builtTable t) (hne : crc32 (F.take (crcOffset F)) ≠ c) :
    decodeOp p n s = .next (t.raise .checksumMismatch) := by
  subst hF
  simp only [decodeOp, hc, hreq, crc32With_built]
  exact if_pos hne

/-- DECODE with the table at hand, of a verified sequence whose header does not hold (R133 to R136). -/
theorem decodeOp_of_fields_error {e : ErrorCode}
    (hc : checkStructure p.upperHex F = .ok (crc32 (F.take (crcOffset F))))
    (hreq : s.requestTable p.tableInit = .ready builtTable t) (he : extractFields p.upperHex F = .error e) :
    decodeOp p n s = .next (t.raise e) := by
  subst hF
  simp [decodeOp, hc, hreq, crc32With_built, he]

/-- DECODE with the table at hand, of a verified sequence whose header holds (R137, R138). -/
theorem decodeOp_of_fields_ok {f : Fields}
    (hc : checkStructure p.upperHex F = .ok (crc32 (F.take (crcOffset F))))
    (hreq : s.requestTable p.tableInit = .ready builtTable t) (hf : extractFields p.upperHex F = .ok f) :
    decodeOp p n s = .next ((t.storeOutput f.payload).complete (decodeResult F f)) := by
  subst hF
  simp [decodeOp, hc, hreq, crc32With_built, hf, decodeResult]

end

section
variable {upper : Bool} {F : List Byte}

/-- A sequence that passes the structural checks: DECODE need be followed only with the table at hand. -/
theorem commonEnding_decode_of_ready {n c : Word} (hc : checkStructure upper F = .ok c)
    (hne : r ≠ .failed .notInitialized)
    (hready : ∀ (p : Config.Params) (s t : State), p.upperHex = upper → F = s.inputBytes n.toNat →
      s.requestTable p.tableInit = .ready builtTable t → t.Built → EndsWith (decodeOp p n s) m r) :
    CommonEnding upper (.decode n) F m r :=
  ⟨hne, fun p s hp hs hF => endsWithOnceBuilt_of_requestTable hs
    (fun hreq => decodeOp_of_notBuilt hF (hp ▸ hc) hreq) fun t hreq ht => hready p s t hp hF hreq ht⟩

variable (upper F)

/-- BUILD_TABLE never asks for the table (R93). -/
theorem exists_commonEnding_buildTable : ∃ m r, CommonEnding upper .buildTable F m r :=
  ⟨Memory.blank, .done { crc := 0, addr := 0, len := 0, olen := 0 }, nofun,
    fun _ s _ _ _ => .inl (endsWith_complete (t := s.buildTable) ⟨rfl, rfl⟩ rfl rfl)⟩

/-- CHECKSUM: the checksum of the input (R97). -/
theorem exists_commonEnding_checksum (d : Word) : ∃ m r, CommonEnding upper (.checksum d) F m r := by
  refine ⟨Memory.blank, .done { crc := crc32 F, addr := 0, len := 0, olen := 0 }, nofun, ?_⟩
  rintro p s - hs rfl
  refine endsWithOnceBuilt_of_requestTable hs (fun hreq => ?_) fun t hreq ht => endsWith_complete ht rfl ?_
  · simp [execUnder, checksumOp, hreq]
  · simp [execUnder, checksumOp, hreq, crc32With_built, encodeRequest]

/-- ENCODE: PayloadTooLarge, found before the table is asked for, or the frame of the input (R110, R111). -/
theorem exists_commonEnding_encode (a d : Word) : ∃ m r, CommonEnding upper (.encode a d) F m r := by
  obtain hlong | hfits := Nat.lt_or_ge Config.maxPayload d.toNat
  · refine ⟨Memory.blank, .failed .payloadTooLarge, nofun, fun p s _ _ _ => .inl (endsWith_raise (s := s) ?_)⟩
    simp [execUnder, encodeOp, hlong]
  · refine ⟨(Memory.ofBytes 0 (encodedFrame a F)).below (encodeResult a F).olen.toNat, .done (encodeResult a F), nofun,
      ?_⟩
    rintro p s - hs rfl
    refine endsWithOnceBuilt_of_requestTable hs (fun hreq => ?_) fun t hreq ht => endsWith_storeOutput_complete ht ?_
    · simp [execUnder, encodeOp, Nat.not_lt.mpr hfits, hreq]
    · simp [execUnder, encodeOp, Nat.not_lt.mpr hfits, hreq, crc32With_built, encodedFrame, encodeRequest,
        encodeResult]

/-- DECODE: the first check the input fails, or the message it carries (R125 to R138). -/
theorem exists_commonEnding_decode (n : Word) : ∃ m r, CommonEnding upper (.decode n) F m r := by
  cases hc : checkStructure upper F with
  | error e => exact ⟨Memory.blank, .failed e, failed_ne_of_checkStructure hc,
      fun p s hp _ hF => .inl (endsWith_raise (decodeOp_of_structure_error hF (hp ▸ hc)))⟩
  | ok c =>
    by_cases hcrc : crc32 (F.take (crcOffset F)) = c
    · subst hcrc
      cases hf : extractFields upper F with
      | error e =>
        refine ⟨Memory.blank, .failed e, commonEnding_decode_of_ready hc (failed_ne_of_extractFields hf) ?_⟩
        rintro p s t rfl hF hreq -
        exact endsWith_raise (decodeOp_of_fields_error hF hc hreq hf)
      | ok f =>
        refine ⟨(Memory.ofBytes 0 f.payload).below (decodeResult F f).olen.toNat, .done (decodeResult F f),
          commonEnding_decode_of_ready hc nofun ?_⟩
        rintro p s t rfl hF hreq ht
        exact endsWith_storeOutput_complete ht (decodeOp_of_fields_ok hF hc hreq hf)
    · refine ⟨Memory.blank, .failed .checksumMismatch, commonEnding_decode_of_ready hc nofun ?_⟩
      rintro p s t rfl hF hreq -
      exact endsWith_raise (decodeOp_of_mismatch hF hc hreq hcrc)

end

/-- Every operation has an ending that all policies have in common (R193). -/
theorem exists_commonEnding (upper : Bool) (i : Instr) (F : List Byte) : ∃ m r, CommonEnding upper i F m r := by
  cases i with
  | buildTable => exact exists_commonEnding_buildTable upper F
  | checksum d => exact exists_commonEnding_checksum upper F d
  | encode a d => exact exists_commonEnding_encode upper F a d
  | decode n => exact exists_commonEnding_decode upper F n

end Sys2Proof.Machine
end

section
/-! PROOFS. The statements of the family 70_reset_and_hazards.md. -/

namespace Sys2Proof.Proofs

open Sys2Proof.Machine

/-- Settles O44: both states hold the same input, so the operation has the same common ending in both; a success is that
ending, and where the table is at hand there is no other. -/
theorem policiesAgreeOnSuccess : Obligations.PoliciesAgreeOnSuccess := by
  unfold Obligations.PoliciesAgreeOnSuccess
  intro p p' i s s' hs hs' hupper hinput
  have hF : s.inputBytes (encodeRequest i).dlen.toNat = s'.inputBytes (encodeRequest i).dlen.toNat :=
    List.map_congr_left fun k hk => hinput k (List.mem_range.mp hk)
  obtain ⟨m, r, hne, hcommon⟩ := exists_commonEnding p.upperHex i (s.inputBytes (encodeRequest i).dlen.toNat)
  have hend := hcommon p s rfl hs rfl
  have hend' := hcommon p' s' hupper.symm hs' hF
  refine ⟨fun t t' q q' ha ha' => ?_, fun hready => ⟨fun t' q' ha' => ?_, fun t ha => ?_⟩⟩
  · obtain ⟨hr, hob, hbuilt⟩ := hend.of_done ha
    obtain ⟨hr', hob', hbuilt'⟩ := hend'.of_done ha'
    exact ⟨Response.done.inj (hr.symm.trans hr'), hob.trans hob'.symm, hbuilt, hbuilt'⟩
  · obtain ⟨rfl, -, -⟩ := hend'.of_done ha'
    obtain ⟨t, ha, -, -⟩ := hend.endsWith hready
    exact ⟨t, ha⟩
  · exact hne ((hend.endsWith hready).of_answers ha).1

end Sys2Proof.Proofs
end

section
/-! SUPPORT. Rules the remaining statements use: how the state after an operation, a reset or an action of the host is
made from the state before it, and what that keeps of the invariant. -/

namespace Sys2Proof.Machine

variable {s t u : State} {i : Instr} {r : Response}

/-- The state after any operation that gives one: the answer to the request, its output exact, in the state before it
or, for BUILD_TABLE, in that state with the table built (R28, R43). -/
theorem exec_eq_respond (h : exec i s = .next t) :
    ∃ u bs r, (u = s ∨ i = .buildTable ∧ u = s.buildTable) ∧ bs.length = r.olen.toNat ∧
      t = (u.storeOutput bs).respond r := by
  obtain ⟨-, -, hx⟩ | ⟨u, hu, bs, r, hlen, hx⟩ := exec_cases i s
  · cases hx.symm.trans h
  · cases hx.symm.trans h
    exact ⟨u, bs, r, hu, hlen, rfl⟩

/-- A response given after an output of the length it counts states exactly those bytes of `OB` (R43). -/
theorem read_ob_respond {bs : List Byte} (hlen : bs.length = r.olen.toNat) (k : Nat) :
    (((u.storeOutput bs).respond r).ob.read k).isSome = true ↔ k < r.olen.toNat := by
  rw [respond_ob, storeOutput_ob, below_ofBytes hlen.le, read_ofBytes_zero, ← hlen]
  simp

/-- An operation that gives a state has answered in it (R28). -/
theorem exists_answers_of_exec (h : exec i s = .next t) : ∃ r, Answers (exec i s) t r := by
  obtain ⟨u, bs, r, -, -, rfl⟩ := exec_eq_respond h
  exact ⟨r, h, respond_response _ r⟩

/-- An operation consumes its request (R175 (f)). -/
theorem exec_request (h : exec i s = .next t) : t.request = none := by
  obtain ⟨u, bs, r, -, -, rfl⟩ := exec_eq_respond h
  exact respond_request _ r

/-- No operation touches the reset input (R190). -/
theorem exec_resetIn (h : exec i s = .next t) : t.resetIn = s.resetIn := by
  obtain ⟨u, bs, r, rfl | ⟨-, rfl⟩, -, rfl⟩ := exec_eq_respond h <;> rfl

/-- Every operation but BUILD_TABLE leaves `TVALID` and `TABLE` alone (R24). -/
theorem exec_tvalid_table (hi : i ≠ .buildTable) (h : exec i s = .next t) :
    t.tvalid = s.tvalid ∧ t.table = s.table := by
  obtain ⟨u, bs, r, rfl | ⟨hi', -⟩, -, rfl⟩ := exec_eq_respond h
  · exact ⟨rfl, rfl⟩
  · exact absurd hi' hi

/-- Every operation leaves a built table built: BUILD_TABLE writes it again, the others do not write it (R24). -/
theorem exec_built (hs : s.Built) (h : exec i s = .next t) : t.Built := by
  obtain ⟨u, bs, r, rfl | ⟨-, rfl⟩, -, rfl⟩ := exec_eq_respond h
  · exact hs
  · exact ⟨rfl, rfl⟩

/-- After an operation exactly the bytes of `OB` its response counts are stated (R43). -/
theorem read_ob_of_answers (h : Answers (exec i s) t r) (k : Nat) :
    (t.ob.read k).isSome = true ↔ k < r.olen.toNat := by
  obtain ⟨hx, hr⟩ := h
  obtain ⟨u, bs, r', -, hlen, rfl⟩ := exec_eq_respond hx
  cases hr
  exact read_ob_respond hlen k

/-- After an operation with an empty output nothing of `OB` is stated (R43, U6). -/
theorem read_ob_eq_none_of_answers (h : Answers (exec i s) t r) (hr : r.olen = 0) (k : Nat) : t.ob.read k = none := by
  have hk := read_ob_of_answers h k
  rw [hr] at hk
  simpa using hk

/-! ### The invariant -/

/-- The invariant says nothing of the port, and of `IB` only that it is canonical. -/
theorem State.Inv.of_eq (h : s.Inv) (hv : t.tvalid = s.tvalid) (ht : t.table = s.table) (hib : Memory.wf t.ib)
    (hob : t.ob = s.ob) (hr : t.response = s.response) : t.Inv := by
  obtain ⟨hcoh, -, hsorted, hexact⟩ := h
  exact ⟨by rwa [State.Built, hv, ht], hib, hob ▸ hsorted, by rwa [hob, hr]⟩

/-- BUILD_TABLE makes the table coherent, and writes no buffer (R93). -/
theorem State.Inv.buildTable (h : s.Inv) : s.buildTable.Inv :=
  ⟨.inr ⟨rfl, rfl⟩, h.inputSorted, h.outputSorted, h.outputExact⟩

/-- An answer whose output is exact keeps the invariant, whatever `OB` held before (R43). -/
theorem State.Inv.respond {bs : List Byte} (h : s.Inv) (hlen : bs.length = r.olen.toNat) :
    ((s.storeOutput bs).respond r).Inv := by
  refine ⟨h.tableCoherent, h.inputSorted, wf_below _ (wf_ofBytes 0 bs), fun r' hr k => ?_⟩
  cases hr
  exact read_ob_respond hlen k

/-- Every operation keeps the invariant. -/
theorem exec_inv (hs : s.Inv) (h : exec i s = .next t) : t.Inv := by
  obtain ⟨u, bs, r, rfl | ⟨-, rfl⟩, hlen, rfl⟩ := exec_eq_respond h
  · exact hs.respond hlen
  · exact hs.buildTable.respond hlen

/-- What reset leaves under `explicit` (R34, R190, R191): `IB` untouched, and `OB` where no operation was abandoned. -/
theorem takeReset_explicit_eq (s : State) :
    s.takeReset .explicit = { State.reset with
      ib := s.ib, ob := if s.request.isSome then Memory.blank else s.ob } := rfl

/-- Reset keeps the invariant: with no response, it says of the buffers only that they are canonical. -/
theorem takeReset_inv (h : s.Inv) : (s.takeReset .explicit).Inv := by
  rw [takeReset_explicit_eq]
  refine ⟨.inl ⟨rfl, rfl⟩, h.inputSorted, ?_, nofun⟩
  change Memory.wf (if s.request.isSome then Memory.blank else s.ob)
  split
  · exact wf_blank
  · exact h.outputSorted

/-- Everything a step that gives a state can do: take reset, nothing, or the pending operation. -/
theorem step_next_cases (h : step s = .next t) :
    (s.resetIn = true ∧ t = s.takeReset .explicit) ∨ t = s ∨ ∃ i, exec i s = .next t := by
  obtain ⟨hreset, hx⟩ | ⟨-, -, hx⟩ | ⟨q, -, -, -, hx⟩ | ⟨q, i, -, -, -, hx⟩ := step_cases s <;> rw [hx] at h
  · cases h
    exact .inl ⟨hreset, rfl⟩
  · cases h
    exact .inr (.inl rfl)
  · cases h
  · exact .inr (.inr ⟨i, h⟩)

/-! ### The host port -/

/-- A request that is not refused is the pending one, and nothing else changes (R197). -/
theorem presentRequest_next {q : Request} (h : s.presentRequest q = .next t) : t = { s with request := some q } := by
  unfold State.presentRequest at h
  split at h <;> cases h
  rfl

/-- A byte that is not refused is written to `IB`, and nothing else changes (R198). -/
theorem supplyInput_next {p : Config.Params} {k : Nat} {b : Byte} (h : s.supplyInput p k b = .next t) :
    t = { s with ib := s.ib.write k b } := by
  unfold State.supplyInput at h
  split at h
  · cases h
  split at h <;> cases h
  rfl

/-- Before the first response no byte of `OB` is a result (R34). -/
theorem validOutput_of_no_response (h : s.response = none) : s.validOutput = 0 := by
  simp [State.validOutput, h]

end Sys2Proof.Machine
end

section
/-! SUPPORT. Rules the remaining statements use: which results and which errors each operation answers. -/

namespace Sys2Proof.Machine

variable {s t : State} {q : Result} {e : ErrorCode}

/-- BUILD_TABLE answers with every field zero, and never with an error (R93). -/
theorem response_of_answers_buildTable {r : Response} (h : Answers (exec .buildTable s) t r) :
    r = .done { crc := 0, addr := 0, len := 0, olen := 0 } := by
  obtain ⟨hx, hr⟩ := h
  cases (exec_buildTable_eq s).symm.trans hx
  cases hr
  rfl

/-- What CHECKSUM can answer: a checksum with the other fields zero, or NotInitialized (R97, R98). -/
theorem response_of_answers_checksum {m : Word} {r : Response} (h : Answers (exec (.checksum m) s) t r) :
    r = .failed .notInitialized ∨ ∃ c, r = .done { crc := c, addr := 0, len := 0, olen := 0 } := by
  obtain ⟨hexec, hr⟩ := h
  change execChecksum m s = _ at hexec
  obtain ⟨-, hx⟩ | ⟨-, -, hx⟩ | ⟨v, -, -, hx⟩ := execChecksum_cases m s <;> cases hx.symm.trans hexec <;> cases hr
  · exact .inl rfl
  · exact .inr ⟨_, rfl⟩

/-- What ENCODE can answer: a checksum and the length of the frame, or one of two errors (R110, R111, R115). -/
theorem response_of_answers_encode {a m : Word} {r : Response} (h : Answers (exec (.encode a m) s) t r) :
    r = .failed .payloadTooLarge ∨ r = .failed .notInitialized ∨
    m.toNat ≤ 65535 ∧ ∃ c, r = .done { crc := c, addr := 0, len := 0, olen := BitVec.ofNat 32 (23 + m.toNat) } := by
  obtain ⟨hexec, hr⟩ := h
  change execEncode a m s = _ at hexec
  obtain ⟨-, hx⟩ | ⟨-, -, hx⟩ | ⟨-, -, -, hx⟩ | ⟨v, c, hm, -, -, -, hx⟩ := execEncode_cases a m s <;>
    cases hx.symm.trans hexec <;> cases hr
  · exact .inl rfl
  · exact .inr (.inl rfl)
  · exact .inr (.inr ⟨hm, c, rfl⟩)

/-- DECODE never answers PayloadTooLarge (R125, R142). -/
theorem ne_payloadTooLarge_of_answers_decode {n : Word} (h : Answers (exec (.decode n) s) t (.failed e)) :
    e ≠ .payloadTooLarge := by
  rintro rfl
  change Answers (execDecode n s) t _ at h
  obtain ⟨e, he, hx⟩ | ⟨c, -, ⟨-, hx⟩ | ⟨-, -, hx⟩ | ⟨v, -, -, ⟨-, hx⟩ | ⟨-, ⟨e, he, hx⟩ | ⟨f, -, hx⟩⟩⟩⟩ :=
    execDecode_cases n s <;> rw [hx] at h
  · obtain rfl := error_eq_of_answers_raise h
    simpa using checkStructure_error he
  · cases error_eq_of_answers_raise h
  · exact not_answers_fault _ _ h
  · cases error_eq_of_answers_raise h
  · obtain rfl := error_eq_of_answers_raise h
    simpa using extractFields_error he
  · exact not_answers_complete_failed _ _ h

/-- In a state of the invariant DECODE succeeds only with the table built (R130). -/
theorem built_of_answers_decode_done {n : Word} (hs : s.Inv) (h : Answers (exec (.decode n) s) t (.done q)) :
    s.Built := by
  obtain ⟨hv, -⟩ | hbuilt := hs.tableCoherent
  · cases hc : checkStructure true (s.inputBytes n.toNat) with
    | error e => exact absurd (exec_decode_of_structure_error rfl hc ▸ h) (not_answers_raise_done e q)
    | ok c => exact absurd (exec_decode_of_notBuilt rfl hv hc ▸ h) (not_answers_raise_done _ q)
  · exact hbuilt

/-- The seven error numbers and 0 fill the three bits (R63). -/
theorem exists_errorCode_of_ne_zero {c : BitVec 3} (h : c ≠ 0#3) : ∃ e : ErrorCode, e.code = c := by
  have hseven : ∀ c : BitVec 3, c ≠ 0#3 →
      c = 1#3 ∨ c = 2#3 ∨ c = 3#3 ∨ c = 4#3 ∨ c = 5#3 ∨ c = 6#3 ∨ c = 7#3 := by decide
  obtain rfl | rfl | rfl | rfl | rfl | rfl | rfl := hseven c h
  · exact ⟨.invalidStart, rfl⟩
  · exact ⟨.invalidTerminator, rfl⟩
  · exact ⟨.truncated, rfl⟩
  · exact ⟨.checksumMismatch, rfl⟩
  · exact ⟨.malformedField, rfl⟩
  · exact ⟨.payloadTooLarge, rfl⟩
  · exact ⟨.notInitialized, rfl⟩

end Sys2Proof.Machine
end

section
/-! SUPPORT. Rules the remaining statements use: fields by offset, fields read without upper case, and the linearity of
the bit-serial CRC. -/

namespace Sys2Proof.Machine

section
variable {upper : Bool} {F : List Byte} {off N v : Nat}

/-- A field inside the sequence has no value exactly where one of its bytes is no digit (R72). -/
theorem parseHex_eq_none_iff (h : off + N ≤ F.length) :
    parseHex upper F off N = none ↔ ∃ k < N, ∃ b, F[off + k]? = some b ∧ hexval upper b = none := by
  rw [parseHex, if_pos h, parseDigits_none]
  constructor
  · rintro ⟨b, hb, hnone⟩
    obtain ⟨k, hk, hbyte⟩ := mem_slice_iff.mp hb
    exact ⟨k, hk, b, hbyte, hnone⟩
  · rintro ⟨k, hk, b, hbyte, hnone⟩
    exact ⟨b, mem_slice_iff.mpr ⟨k, hk, hbyte⟩, hnone⟩

/-- The strict reader takes the lower-case digits, with the values they always have (R8, R70). -/
theorem hexval_false_iff {c : Byte} {d : Nat} :
    hexval false c = some d ↔ hexval true c = some d ∧ isLowerDigit c = true := by
  constructor
  · intro h
    refine ⟨hexval_of_strict h, ?_⟩
    by_contra hlow
    simp only [isLowerDigit, Bool.or_eq_true, decide_eq_true_eq, not_or] at hlow
    simp [hexval, hlow] at h
  · rintro ⟨h, hlow⟩
    obtain ⟨d', hd', -, -⟩ := hexval_of_isLowerDigit (upper := false) hlow
    rw [hd', ← hexval_of_strict (upper := true) hd', h]

/-- The loop of R72 without upper case: the same value, and only lower-case digits. -/
theorem parseDigits_false_iff {w : Nat} {ds : List Byte} :
    parseDigits false v ds = some w ↔ parseDigits true v ds = some w ∧ ∀ b ∈ ds, isLowerDigit b = true := by
  induction ds generalizing v with
  | nil => simp [parseDigits]
  | cons c cs ih =>
    simp only [parseDigits, List.forall_mem_cons]
    cases hc : hexval false c with
    | some d =>
      obtain ⟨htrue, hlow⟩ := hexval_false_iff.mp hc
      simp [htrue, hlow, ih]
    | none =>
      have hlow : isLowerDigit c ≠ true := fun hlow => by
        obtain ⟨d, hd, -, -⟩ := hexval_of_isLowerDigit (upper := false) hlow
        cases hc.symm.trans hd
      simp [hlow]

/-- A field read without upper case: the same value, and only lower-case digits (R8, R72). -/
theorem parseHex_false_iff :
    parseHex false F off N = some v ↔
      parseHex true F off N = some v ∧ ∀ k < N, (F[off + k]?.map isLowerDigit) = some true := by
  by_cases hin : off + N ≤ F.length
  · have hmem : (∀ b ∈ (F.drop off).take N, isLowerDigit b = true) ↔
        ∀ k < N, (F[off + k]?.map isLowerDigit) = some true := by
      refine ⟨fun h k hk => ?_, fun h b hb => ?_⟩
      · have hbyte : F[off + k]? = some F[off + k] := List.getElem?_eq_getElem (by omega)
        simp [hbyte, h _ (mem_slice_iff.mpr ⟨k, hk, hbyte⟩)]
      · obtain ⟨k, hk, hbyte⟩ := mem_slice_iff.mp hb
        simpa [hbyte] using h k hk
    rw [parseHex, parseHex, if_pos hin, if_pos hin, parseDigits_false_iff, hmem]
  · simp [parseHex, hin]

/-- The lower-case condition field by field: ADDR, LEN and CRC (R76). -/
theorem lowerFields_iff :
    LowerFields F ↔ (∀ k < 8, (F[1 + k]?.map isLowerDigit) = some true) ∧
      (∀ k < 4, (F[9 + k]?.map isLowerDigit) = some true) ∧
      ∀ k < 8, (F[crcOffset F + k]?.map isLowerDigit) = some true := by
  constructor
  · rintro ⟨hheader, hcrc⟩
    exact ⟨fun k hk => hheader _ (by omega) (by omega), fun k hk => hheader _ (by omega) (by omega), hcrc⟩
  · rintro ⟨haddr, hlen, hcrc⟩
    refine ⟨fun k hk1 hk13 => ?_, hcrc⟩
    obtain hk | hk := Nat.lt_or_ge k 9
    · simpa [Nat.add_sub_cancel' hk1] using haddr (k - 1) (by omega)
    · simpa [Nat.add_sub_cancel' hk] using hlen (k - 9) (by omega)

/-- The strict decoder accepts the canonical frames, with the same values of the fields (R76). -/
theorem acceptedAs_false_iff {c a L : Nat} :
    AcceptedAs false F c a L ↔ AcceptedAs true F c a L ∧ LowerFields F := by
  rw [lowerFields_iff]
  constructor
  · rintro ⟨hframed, hclaimed, hverified, haddr, hlen, hagrees⟩
    obtain ⟨hclaimed, hcrcLow⟩ := parseHex_false_iff.mp hclaimed
    obtain ⟨haddr, haddrLow⟩ := parseHex_false_iff.mp haddr
    obtain ⟨hlen, hlenLow⟩ := parseHex_false_iff.mp hlen
    exact ⟨⟨hframed, hclaimed, hverified, haddr, hlen, hagrees⟩, haddrLow, hlenLow, hcrcLow⟩
  · rintro ⟨⟨hframed, hclaimed, hverified, haddr, hlen, hagrees⟩, haddrLow, hlenLow, hcrcLow⟩
    exact ⟨hframed, parseHex_false_iff.mpr ⟨hclaimed, hcrcLow⟩, hverified, parseHex_false_iff.mpr ⟨haddr, haddrLow⟩,
      parseHex_false_iff.mpr ⟨hlen, hlenLow⟩, hagrees⟩

/-- An accepted frame is at least the 23 bytes around a payload and at most `MAX_FRAME` (R6, R76). -/
theorem Accepted.length_bounds (h : Accepted upper F) : 23 ≤ F.length ∧ F.length ≤ 65558 := by
  obtain ⟨c, a, L, hacc⟩ := h
  have hL : L < 16 ^ 4 := parseHex_lt hacc.length
  have hlen := hacc.length_eq
  omega

end

/-- A step that shifts out 0 only moves the accumulator down (R102). -/
theorem serialStep_of_low_clear {x : Word} (h : x.getLsbD 0 = false) : serialStep x = x >>> 1 := by
  rw [serialStep, h, if_neg Bool.false_ne_true]

/-- A bit-serial step is linear over exclusive OR: where both parts shift out 1, `poly` goes in twice and cancels
(R102). -/
theorem serialStep_linear (x y : Word) : serialStep (x ^^^ y) = serialStep x ^^^ serialStep y := by
  cases hx : x.getLsbD 0 with
  | false => rw [serialStep_xor y hx, serialStep_of_low_clear hx]
  | true =>
    cases hy : y.getLsbD 0 with
    | false => rw [BitVec.xor_comm x, serialStep_xor x hy, serialStep_of_low_clear hy, BitVec.xor_comm]
    | true =>
      have hxy : (x ^^^ y).getLsbD 0 = false := by
        rw [BitVec.getLsbD_xor, hx, hy, Bool.xor_self]
      calc serialStep (x ^^^ y)
          = x >>> 1 ^^^ (poly ^^^ poly) ^^^ y >>> 1 := by
            rw [serialStep_of_low_clear hxy, BitVec.ushiftRight_xor_distrib, BitVec.xor_self, BitVec.xor_zero]
        _ = serialStep x ^^^ serialStep y := by
            simp only [serialStep, hx, hy, if_true]
            ac_rfl

/-- Any number of bit-serial steps is linear over exclusive OR. -/
theorem serialSteps_linear (n : Nat) (x y : Word) : serialSteps n (x ^^^ y) = serialSteps n x ^^^ serialSteps n y := by
  induction n generalizing x y with
  | zero => rfl
  | succ n ih => rw [serialSteps, serialStep_linear, ih, serialSteps, serialSteps]

end Sys2Proof.Machine
end

section
/-! PROOFS. The remaining statements: requests and steps, the CRC-32 engine, hexadecimal fields, accepted frames, the
invariant, and what each operation leaves unchanged. -/

namespace Sys2Proof.Proofs

open Sys2Proof.Machine

/-- Settles O45: reset, the idle step and every operation keep the invariant. -/
theorem stepKeepsInvariant : Obligations.StepKeepsInvariant := by
  unfold Obligations.StepKeepsInvariant
  intro s t hs h
  obtain ⟨-, rfl⟩ | rfl | ⟨i, hx⟩ := step_next_cases h
  · exact takeReset_inv hs
  · exact hs
  · exact exec_inv hs hx

/-- Settles O2, operation by operation: the decoder's equation for its code, with a length that fits. -/
theorem requestRoundTrip : Obligations.RequestRoundTrip := by
  unfold Obligations.RequestRoundTrip
  intro p i hfit
  cases i with
  | buildTable => exact decodeRequest_of_op_buildTable rfl
  | checksum d => exact (decodeRequest_of_op_checksum rfl).trans (withLength_of_fits _ hfit)
  | encode a d => exact (decodeRequest_of_op_encode rfl).trans (withLength_of_fits _ hfit)
  | decode d => exact (decodeRequest_of_op_decode rfl).trans (withLength_of_fits _ hfit)

/-- Settles O3, answer by answer of the decoder. -/
theorem decodedOperationCarriesFields : Obligations.DecodedOperationCarriesFields := by
  unfold Obligations.DecodedOperationCarriesFields
  intro p r i h
  obtain ⟨ho, hd⟩ | ⟨-, -, hd⟩ | ⟨ho, hfit, hd⟩ | ⟨ho, hfit, hd⟩ | ⟨ho, hfit, hd⟩ := decodeRequest_cases p r <;>
    cases hd.symm.trans h
  · exact ⟨rfl, ho.symm, fun hne => absurd ho hne, by simp [ho]⟩
  · exact ⟨(fitsBuffer_iff p _).mpr hfit, ho.symm, fun _ => rfl, by simp [ho]⟩
  · exact ⟨(fitsBuffer_iff p _).mpr hfit, ho.symm, fun _ => rfl, fun _ => rfl⟩
  · exact ⟨(fitsBuffer_iff p _).mpr hfit, ho.symm, fun _ => rfl, by simp [ho]⟩

/-- Settles O5, answer by answer of the decoder: where it gives an operation, the code is 00 or the length fits. -/
theorem requestRefusedExactlyBeyondCapacity : Obligations.RequestRefusedExactlyBeyondCapacity := by
  unfold Obligations.RequestRefusedExactlyBeyondCapacity
  intro p r
  obtain ⟨ho, hd⟩ | ⟨ho, hlong, hd⟩ | ⟨-, hfit, hd⟩ | ⟨-, hfit, hd⟩ | ⟨-, hfit, hd⟩ := decodeRequest_cases p r <;>
    rw [hd]
  · simp [ho]
  · exact iff_of_true rfl ⟨ho, hlong⟩
  all_goals simp [Nat.not_lt.mpr hfit]

/-- Settles O12: a table entry is eight bit-serial steps, each of which is linear. -/
theorem tableEntryIsLinear : Obligations.TableEntryIsLinear := by
  unfold Obligations.TableEntryIsLinear
  intro i j
  rw [tableEntry_eq_serialSteps, BitVec.setWidth_xor, serialSteps_linear, ← tableEntry_eq_serialSteps,
    ← tableEntry_eq_serialSteps]

/-- Settles O13: the rules of a table entry and of the per-byte update. -/
theorem crcStepIsEightSerialSteps : Obligations.CrcStepIsEightSerialSteps := by
  unfold Obligations.CrcStepIsEightSerialSteps
  exact ⟨tableEntry_eq_serialSteps, crcStep_eq_serialSteps⟩

/-- Settles O14: the two folds have the same step. -/
theorem checksumIsBitSerialCrc : Obligations.ChecksumIsBitSerialCrc := by
  unfold Obligations.ChecksumIsBitSerialCrc
  intro bs
  rw [crc32, crc32With, funext₂ crcStep_eq_serialSteps, crcInit]

/-- Settles O20: the field is the slice between the two other parts. -/
theorem parseHexInvertsHexN : Obligations.ParseHexInvertsHexN := by
  unfold Obligations.ParseHexInvertsHexN
  intro upper v N before after hv
  exact parseHex_of_slice upper hv (by simp) (by simp)

/-- Settles O21: where a field has no value, and the bound of a value. -/
theorem parseHexAllOrNothing : Obligations.ParseHexAllOrNothing := by
  unfold Obligations.ParseHexAllOrNothing
  exact fun upper F off N hin => ⟨parseHex_eq_none_iff hin, fun v => parseHex_lt⟩

/-- Settles O35: a success needs an accepted frame, and DECODE's equation for an accepted frame is a success. -/
theorem decodeSucceedsExactlyOnAccepted : Obligations.DecodeSucceedsExactlyOnAccepted := by
  unfold Obligations.DecodeSucceedsExactlyOnAccepted
  intro s n hs
  constructor
  · rintro ⟨t, q, h⟩
    exact acceptedAs_of_answers_done hs h
  · rintro ⟨c, a, L, hacc⟩
    exact ⟨_, _, decodeAcceptedFrame s n _ c a L hs rfl hacc, rfl⟩

/-- Settles O36: the input is an accepted frame, and DECODE's equation for it has the values of the fields. -/
theorem decodedMessageIsVerified : Obligations.DecodedMessageIsVerified := by
  unfold Obligations.DecodedMessageIsVerified
  rintro s t n _ q hinv rfl h
  have hs := built_of_answers_decode_done hinv h
  obtain ⟨c, a, L, hacc⟩ := acceptedAs_of_answers_done hs h
  obtain ⟨hx, hq⟩ := h
  cases (decodeAcceptedFrame s n _ c a L hs rfl hacc).symm.trans hx
  cases hq
  have hL : L < 16 ^ 4 := parseHex_lt hacc.length
  have hn : n.toNat = 23 + L := (inputBytes_length s _).symm.trans hacc.length_eq
  have hpayload : n.toNat - 23 = L := by omega
  have hclaimed := hacc.claimed
  have hverified := hacc.verified
  rw [crcOffset_inputBytes] at hclaimed hverified
  rw [hpayload]
  refine ⟨by rw [toNat_ofNat_of_parseHex hclaimed, hclaimed], hverified, Nat.mod_eq_of_lt hL,
    Nat.mod_eq_of_lt (by omega), fun k hk => ?_⟩
  rw [read_ofBytes_zero, List.getElem?_take, if_pos hk, List.getElem?_drop, inputBytes_getElem?_of_lt (by omega)]

/-- Settles O37: every operation answers from the invariant; DECODE never with PayloadTooLarge, and with results only
for an accepted frame, which is not so long. -/
theorem decodeAlwaysAnswers : Obligations.DecodeAlwaysAnswers := by
  unfold Obligations.DecodeAlwaysAnswers
  intro s n hs
  obtain ⟨t, r, hx, hr, -⟩ := exec_answers_of_inv (.decode n) hs
  refine ⟨t, r, ⟨hx, hr⟩, ?_, fun hlong => ?_⟩
  · rintro rfl
    exact ne_payloadTooLarge_of_answers_decode ⟨hx, hr⟩ rfl
  · cases r with
    | failed e => exact ⟨e, rfl⟩
    | done q =>
      have hacc : Accepted true (s.inputBytes n.toNat) :=
        acceptedAs_of_answers_done (built_of_answers_decode_done hs ⟨hx, hr⟩) ⟨hx, hr⟩
      have hshort := hacc.length_bounds.2
      rw [inputBytes_length] at hshort
      exact absurd hlong (Nat.not_lt.mpr hshort)

/-- Settles O38: the bounds of the length, and the strict decoder frame by frame. -/
theorem acceptedFrameForms : Obligations.AcceptedFrameForms := by
  unfold Obligations.AcceptedFrameForms
  refine fun F => ⟨fun upper h => h.length_bounds, ?_⟩
  simp only [Accepted, acceptedAs_false_iff, exists_and_right]

/-- Settles O47: reset input and request are no part of the invariant, and a byte written keeps `IB` canonical. -/
theorem hostPortKeepsInvariant : Obligations.HostPortKeepsInvariant := by
  unfold Obligations.HostPortKeepsInvariant
  refine fun s t p r k b hs => ⟨hs.of_eq rfl rfl hs.inputSorted rfl rfl, fun h => ?_, fun h => ?_⟩
  · obtain rfl := presentRequest_next h
    exact hs.of_eq rfl rfl hs.inputSorted rfl rfl
  · obtain rfl := supplyInput_next h
    exact hs.of_eq rfl rfl (wf_write k b hs.inputSorted) rfl rfl

/-- Settles O48: only an operation could fault, and from the invariant every operation gives a next state. -/
theorem stepNeverFaults : Obligations.StepNeverFaults := by
  unfold Obligations.StepNeverFaults
  intro s f hs h
  obtain ⟨-, hx⟩ | ⟨-, -, hx⟩ | ⟨q, -, -, -, hx⟩ | ⟨q, i, -, -, -, hx⟩ := step_cases s <;> rw [hx] at h
  · cases h
  · cases h
  · cases h
  · obtain ⟨t, r, hnext, -⟩ := exec_answers_of_inv i hs
    cases hnext.symm.trans h

/-- Settles O49: without reset a step is idle or an operation, and every operation leaves a built table built. -/
theorem builtTableLastsUntilReset : Obligations.BuiltTableLastsUntilReset := by
  unfold Obligations.BuiltTableLastsUntilReset
  intro s t hs hreset h
  obtain ⟨hreset', -⟩ | rfl | ⟨i, hx⟩ := step_next_cases h
  · cases hreset.symm.trans hreset'
  · exact hs
  · exact exec_built hs hx

/-- Settles O50: an operation that is not BUILD_TABLE answers in the state it started from. -/
theorem onlyBuildTableWritesTable : Obligations.OnlyBuildTableWritesTable := by
  unfold Obligations.OnlyBuildTableWritesTable
  exact fun i s t hi h => exec_tvalid_table hi h

/-- Settles O54: the numbers by definition, and what each operation can answer. -/
theorem errorCodesAndTheirOperations : Obligations.ErrorCodesAndTheirOperations := by
  unfold Obligations.ErrorCodesAndTheirOperations
  refine ⟨⟨rfl, rfl, rfl, rfl, rfl, rfl, rfl⟩, fun q => rfl,
    fun c => Classical.or_iff_not_imp_left.mpr exists_errorCode_of_ne_zero,
    fun s t a d e => ⟨fun h => ?_, fun h => ?_, fun h => ?_, ne_payloadTooLarge_of_answers_decode⟩⟩
  · cases response_of_answers_buildTable h
  · obtain ⟨⟨⟩⟩ | ⟨c, ⟨⟩⟩ := response_of_answers_checksum h
    rfl
  · obtain ⟨⟨⟩⟩ | ⟨⟨⟩⟩ | ⟨-, c, ⟨⟩⟩ := response_of_answers_encode h
    · exact .inl rfl
    · exact .inr rfl

/-- Settles O55: the frame of every operation, and both answer with an empty output. -/
theorem engineOperationsFrame : Obligations.EngineOperationsFrame := by
  unfold Obligations.EngineOperationsFrame
  refine fun s t m => ⟨fun h => ?_, fun h => ?_⟩ <;> obtain ⟨r, ha⟩ := exists_answers_of_exec h
  · have holen : r.olen = 0 := by rw [response_of_answers_buildTable ha, done_olen]
    exact ⟨fun k => by rw [exec_ib h], read_ob_eq_none_of_answers ha holen, exec_resetIn h, exec_request h⟩
  · have holen : r.olen = 0 := by
      obtain rfl | ⟨c, rfl⟩ := response_of_answers_checksum ha
      · exact failed_olen _
      · exact done_olen _
    exact ⟨fun k => by rw [exec_ib h], read_ob_eq_none_of_answers ha holen, exec_resetIn h, exec_request h,
      exec_tvalid_table (by simp) h⟩

/-- Settles O56: the frame of every operation, and the length of the frame ENCODE answers with. -/
theorem encodeFrame : Obligations.EncodeFrame := by
  unfold Obligations.EncodeFrame
  intro s t a m r h
  have hx := h.1
  obtain ⟨hvalid, htable⟩ := exec_tvalid_table (by simp) hx
  refine ⟨hvalid, htable, fun k => by rw [exec_ib hx], exec_resetIn hx, exec_request hx, ?_, ?_⟩
  · rintro e rfl k
    exact read_ob_eq_none_of_answers h rfl k
  · rintro q rfl k
    obtain ⟨⟨⟩⟩ | ⟨⟨⟩⟩ | ⟨hm, c, ⟨⟩⟩ := response_of_answers_encode h
    have holen : (BitVec.ofNat 32 (23 + m.toNat)).toNat = 23 + m.toNat := Nat.mod_eq_of_lt (by omega)
    rw [read_ob_of_answers h, done_olen, holen]

/-- Settles O57: the frame of every operation, and its output is exactly what its response counts. -/
theorem decodeFrame : Obligations.DecodeFrame := by
  unfold Obligations.DecodeFrame
  intro s t n r h
  have hx := h.1
  obtain ⟨hvalid, htable⟩ := exec_tvalid_table (by simp) hx
  refine ⟨hvalid, htable, fun k => by rw [exec_ib hx], exec_resetIn hx, exec_request hx, ?_, ?_⟩
  · rintro e rfl k
    exact read_ob_eq_none_of_answers h rfl k
  · rintro q rfl k
    exact read_ob_of_answers h k

/-- Settles O6: with a request pending and no reset, a step is decided by the decoder's answer. -/
theorem stepRunsDecodedRequest : Obligations.StepRunsDecodedRequest := by
  unfold Obligations.StepRunsDecodedRequest
  intro s r hreset hreq
  cases hd : decodeRequest Config.params r with
  | ok i => exact step_eq_exec hreset hreq hd
  | error e =>
    cases e
    simp [step, hreset, hreq, hd, refuseRequest]

/-- Settles O7: neither reset nor a request, so the step is the idle one. -/
theorem idleStepChangesNothing : Obligations.IdleStepChangesNothing := by
  unfold Obligations.IdleStepChangesNothing
  intro s hreset hreq
  simp [step, stepIdle, hreset, hreq]

/-- Settles O8: the step is reset under `explicit`, whose fields are those of the reset state but for the buffers. -/
theorem resetStepEffect : Obligations.ResetStepEffect := by
  unfold Obligations.ResetStepEffect
  intro s hreset
  have hx : step s = .next (s.takeReset .explicit) := by simp [step, hreset, Config.params]
  refine ⟨_, hx, rfl, rfl, rfl, rfl, rfl, fun k => by rw [takeReset_ib], fun hidle k => ?_⟩
  simp [takeReset_explicit_eq, hidle]

/-- Settles O9: the fields of the reset state. -/
theorem resetStateValues : Obligations.ResetStateValues := by
  unfold Obligations.ResetStateValues
  exact ⟨rfl, rfl, rfl, rfl⟩

/-- Settles O10: the table after reset, policy by policy. -/
theorem resetUnderEachPolicy : Obligations.ResetUnderEachPolicy := by
  unfold Obligations.ResetUnderEachPolicy
  exact fun s => ⟨⟨rfl, rfl⟩, ⟨rfl, rfl⟩, rfl, rfl⟩

/-- Settles O11: the five values by evaluation, and the law of reading the built table. -/
theorem tableEntryKnownValues : Obligations.TableEntryKnownValues := by
  unfold Obligations.TableEntryKnownValues
  exact ⟨by decide, by decide, by decide, by decide, by decide, tableRead_built⟩

/-- Settles O46: not built, no response, and both buffers empty. -/
theorem resetSatisfiesInvariant : Obligations.ResetSatisfiesInvariant := by
  unfold Obligations.ResetSatisfiesInvariant
  exact ⟨.inl ⟨rfl, rfl⟩, wf_blank, wf_blank, nofun⟩

/-- Settles O53: the results each operation can answer. -/
theorem unusedResponseFieldsAreZero : Obligations.UnusedResponseFieldsAreZero := by
  unfold Obligations.UnusedResponseFieldsAreZero
  refine fun s t a m q => ⟨fun h => ?_, fun h => ?_, fun h => ?_⟩
  · cases response_of_answers_buildTable h
    exact ⟨rfl, rfl, rfl, rfl⟩
  · obtain ⟨⟨⟩⟩ | ⟨c, ⟨⟩⟩ := response_of_answers_checksum h
    exact ⟨rfl, rfl, rfl⟩
  · obtain ⟨⟨⟩⟩ | ⟨⟨⟩⟩ | ⟨-, c, ⟨⟩⟩ := response_of_answers_encode h
    exact ⟨rfl, rfl⟩

/-- Settles O58: each port function looks at the pending request first. -/
theorem busyPortRefusesHost : Obligations.BusyPortRefusesHost := by
  unfold Obligations.BusyPortRefusesHost
  intro s q r hreq
  have hbusy : s.request.isSome = true := by rw [hreq, Option.isSome_some]
  exact ⟨if_pos hbusy, fun p k b => if_pos hbusy, fun k => if_pos hbusy⟩

/-- Settles O59: no offset at or beyond the valid output holds a result, and before the first response that is 0. -/
theorem outputIsResultOnlyBelowLength : Obligations.OutputIsResultOnlyBelowLength := by
  unfold Obligations.OutputIsResultOnlyBelowLength
  refine fun s k => ⟨fun h => resultByte_eq_none ?_, fun r h hk => resultByte_eq_none ?_⟩
  · exact (validOutput_of_no_response h).trans_le k.zero_le
  · exact (validOutput_of_response h).trans_le hk

end Sys2Proof.Proofs
end
